-- ==== Sys2Proof/Word.lean ====
section
/-! DEFINITION. The word types of the engine (spec/00_scope.md R3, sections 5 and 7.1). -/

namespace Sys2Proof

/-- A byte: 8 bits, 0..255 (00_scope.md section 7.1). -/
abbrev Byte := BitVec 8

/-- A lane: one unsigned 64-bit word of the state (R10). -/
abbrev Lane := BitVec 64

/-- A command word `cmd[9:0]` (R51). -/
abbrev CommandWord := BitVec 10

/-- The 25 lanes `A[0] .. A[24]`, 1600 bits (R10). -/
abbrev Lanes := Vector Lane 25

/-- A block, and the absorption buffer: 136 bytes, the rate (R13). -/
abbrev Block := Vector Byte 136

/-- A digest: 32 bytes (R95). -/
abbrev Digest := Vector Byte 32

end Sys2Proof
end

