-- ==== Sys2Proof/Config.lean ====
section
/-! DEFINITION. The fixed sizes of the engine (spec/00_scope.md R3). None is configurable. The spec leaves
no value of the engine to a draw (93_implementation_defined.md part 1), so there is no free value here.
The one open parameter of the spec, NUM_ENGINES (R163, D20), is the argument `n` of
`Sys2Proof.Machine.System` (Machine/System.lean), as the spec asks. -/

namespace Sys2Proof.Config

/-- `RATE`: the bytes of one block, and the capacity of the absorption buffer (R3). -/
def rate : Nat := 136

/-- The lanes of the rate, lanes 0 to 16 (R3, R11). -/
def rateLanes : Nat := 17

/-- The lanes of the capacity, lanes 17 to 24 (R3, R11). -/
def capacityLanes : Nat := 8

/-- `NROUNDS`: the rounds of one permutation (R3). -/
def numRounds : Nat := 24

/-- `DLEN`: the bytes of a digest (R3). -/
def digestLength : Nat := 32

end Sys2Proof.Config
end

