-- ==== Sys2Proof/Syntax.lean ====
section
/-! DEFINITION. The commands of the engine: one constructor per row of spec/opcode_table.json
(spec/30_encoding.md R52, R56). -/

namespace Sys2Proof

/-- What a command word decodes to (R56: every 10-bit word is exactly one of these). The ignored `imm8`
of `RESET`, `FINALIZE` and the reserved opcode (R54, R55) is no operand, so it is no argument here. -/
inductive Instr where
  /-- `RESET`, `op` = 0 (R70). -/
  | reset
  /-- `ABSORB imm8`, `op` = 1 (R71); `imm8` is the message byte itself (R53). -/
  | absorb (imm8 : Byte)
  /-- `FINALIZE`, `op` = 2 (R90). -/
  | finalize
  /-- The reserved opcode, `op` = 3, the table's row `RESERVED` (R55, R153). -/
  | reserved
  deriving DecidableEq, Repr

end Sys2Proof
end

