-- ==== Sys2Proof/Machine/State.lean ====
section
/-! DEFINITION. The state of one engine and of its ports (spec/10_state.md R10 to R25, 30_encoding.md R50,
R57), the reasons a step can stop, and the state after reset (R24, R170). -/

namespace Sys2Proof.Machine

/-- The lifecycle flag `PHASE`, one bit: 0 = ABSORBING, 1 = FINALIZED (R16). -/
inductive Phase where
  | absorbing
  | finalized
  deriving DecidableEq, Repr

/-- The causes of the two usage errors (R150). -/
inductive Cause where
  /-- Cause 1, `ALREADY_FINALIZED`: an `ABSORB` or `FINALIZE` with `PHASE` = 1 (R151). -/
  | alreadyFinalized
  /-- Cause 2, `ILLEGAL_COMMAND`: a word with `op` = 3 (R153). -/
  | illegalCommand
  deriving DecidableEq, Repr

/-- The response of a command (R57). -/
inductive Response where
  | ok
  | digest (d : Digest)
  | error (c : Cause)
  deriving DecidableEq, Repr

/-- What the host can do to one engine (00_scope.md section 6, row Host; R50, R19, R20, R170). -/
inductive HostAction where
  /-- Present a command word on the command port (R50). -/
  | command (w : CommandWord)
  /-- Read the STATUS port (R19). -/
  | readStatus
  /-- Read the DIGEST port (R20). -/
  | readDigest
  /-- Assert power-on reset (R170). -/
  | powerOnReset
  deriving DecidableEq, Repr

/-- What the engine shows the host (R50: the response to a command, the STATUS port, the DIGEST port). -/
inductive PortOutput where
  | response (r : Response)
  | status (v : BitVec 16)
  | digest (v : BitVec 256)
  deriving DecidableEq, Repr

/-- The architectural state of one engine instance: exactly the state of 10_state.md section 1. -/
structure Engine where
  /-- The lanes `A[0..24]` (R10, R11). -/
  lanes : Lanes
  /-- The absorption buffer `BUF[0..135]` (R13). -/
  buf : Block
  /-- The occupied count `CNT`, an 8-bit register whose values are 0..135 between commands (R14). -/
  cnt : Fin 136
  /-- The lifecycle flag `PHASE` (R16). -/
  phase : Phase
  /-- The sticky bit `ERR_FINALIZED` (R17). -/
  errFinalized : Bool
  /-- The sticky bit `ERR_ILLEGAL` (R17). -/
  errIllegal : Bool
  deriving DecidableEq, Repr

/-- One engine with the host's side of its ports. -/
structure State where
  /-- The engine. -/
  engine : Engine
  /-- What the host presents next, in order (R50, R18: a program is consumed from its head). The host's,
  not the engine's (00_scope.md section 6). -/
  pending : List HostAction
  /-- What the engine has shown the host, oldest first (R57). The host's record, not the engine's. -/
  outputs : List PortOutput
  deriving DecidableEq, Repr

/-- The engine raises no fault that stops it: its two usage errors are refusals of one command after which
the next command is accepted normally (R150, R152), and there is "no hang and no stuck state" (R176).
So there is no fault, and a step never answers one. -/
inductive Fault where
  deriving DecidableEq, Repr

/-- Why a step has no answer. -/
inductive Refusal where
  /-- Raised by `exec` for a command without a meaning. No arm raises it: every command has its meaning.
  Safe: the model stops where the hardware goes on. -/
  | notModelled (mnemonic : String)
  /-- Raised by a read of the DIGEST port while `PHASE` = 0: the port has no defined value and the spec says
  that a model refuses the read (R20, U4). No command raises it. Safe: the model stops where the hardware
  goes on. -/
  | digestNotValid
  deriving DecidableEq, Repr

/-- The all-zero 25-lane state (R10: "All lanes start at zero."). -/
def zeroLanes : Lanes := Vector.replicate 25 0

/-- The zeroed buffer (R24). -/
def zeroBlock : Block := Vector.replicate 136 0

/-- The engine after `RESET` and after power-on reset (R24). -/
def Engine.reset : Engine where
  lanes := zeroLanes
  buf := zeroBlock
  cnt := 0
  phase := .absorbing
  errFinalized := false
  errIllegal := false

/-- The machine right after power-on reset: nothing presented yet, nothing shown yet (R24, R170). -/
def State.reset : State where
  engine := .reset
  pending := []
  outputs := []

end Sys2Proof.Machine
end

