-- ==== Sys2Proof/Machine/Tables.lean ====
section
/-! DEFINITION. The two constant tables of the permutation (spec/42_permutation.md R115, R119, R21) and the
two generators that cross-check them (R123, R124). Neither table is state. -/

namespace Sys2Proof.Machine

/-- `RHO` by lane index `x + 5*y`: rotation to the left, in bits, of the lane at that source (R115). -/
def rhoTable : Vector (Fin 64) 25 :=
  #v[0, 1, 62, 28, 27,
     36, 44, 6, 55, 20,
     3, 10, 43, 25, 39,
     41, 45, 15, 21, 8,
     18, 2, 61, 56, 14]

/-- `RHO[x, y]` (R115). -/
def rho (x y : Fin 5) : Fin 64 := rhoTable[x.val + 5 * y.val]'(by omega)

/-- The 12 rows of the table of R119, as it is laid out there: row `r` holds `RC[r]` and `RC[r + 12]`. -/
def rcRows : Vector (Lane × Lane) 12 :=
  #v[(0x0000000000000001, 0x000000008000808B),
     (0x0000000000008082, 0x800000000000008B),
     (0x800000000000808A, 0x8000000000008089),
     (0x8000000080008000, 0x8000000000008003),
     (0x000000000000808B, 0x8000000000008002),
     (0x0000000080000001, 0x8000000000000080),
     (0x8000000080008081, 0x000000000000800A),
     (0x8000000000008009, 0x800000008000000A),
     (0x000000000000008A, 0x8000000080008081),
     (0x0000000000000088, 0x8000000000008080),
     (0x0000000080008009, 0x0000000080000001),
     (0x000000008000000A, 0x8000000080008008)]

/-- `RC[r]`: the left column for rounds 0 to 11, the right one for rounds 12 to 23 (R119). -/
def rc (r : Fin 24) : Lane :=
  if h : r.val < 12 then rcRows[r.val].1 else (rcRows[r.val - 12]'(by omega)).2

/-- The walk of the closed form of `RHO`: from position (x, y) at time `t`, the entries
`((x, y), ((t + 1) * (t + 2) / 2) mod 64)` of the next `k` positions (R123). -/
def rhoWalk : Nat → Nat → Fin 5 → Fin 5 → List ((Fin 5 × Fin 5) × Nat)
  | 0, _, _, _ => []
  | k + 1, t, x, y => ((x, y), (t + 1) * (t + 2) / 2 % 64) :: rhoWalk k (t + 1) y (2 * x + 3 * y)

/-- One step of the generator's register: shift left; if bit 8 of the 9-bit result is 1, XOR `0x171`;
keep 8 bits (R124). -/
def lfsrStep (r : Byte) : Byte :=
  let shifted : BitVec 9 := r.setWidth 9 <<< 1
  (if shifted.getLsbD 8 then shifted ^^^ 0x171 else shifted).setWidth 8

/-- The register before step `n`, from 0x01 (R124). -/
def lfsrAt : Nat → Byte
  | 0 => 0x01
  | n + 1 => lfsrStep (lfsrAt n)

/-- Round constant `r` as the generator gives it: output bit `b_j` of round `r`, the bit 0 of the register
before step `7*r + j`, stands at bit `2^j - 1`; every other bit is 0 (R124). -/
def rcGenerated (r : Fin 24) : Lane :=
  (List.range 7).foldl
    (fun v j => if (lfsrAt (7 * r.val + j)).getLsbD 0 then v ||| (1#64 <<< (2 ^ j - 1)) else v) 0

end Sys2Proof.Machine
end

