-- ==== Sys2Proof/Machine/Permutation.lean ====
section
/-! DEFINITION. The permutation: theta, rho-pi, chi, iota, 24 rounds (spec/42_permutation.md R110 to R121). -/

namespace Sys2Proof.Machine

/-- `A[x, y]`: lane `x + 5*y`, `x` the column and `y` the row (R11). -/
def laneAt (S : Lanes) (x y : Fin 5) : Lane := S[x.val + 5 * y.val]'(by omega)

/-- The 25-lane state whose lane `A[x, y]` is `f x y` (R11). -/
def lanesOf (f : Fin 5 → Fin 5 → Lane) : Lanes :=
  Vector.ofFn fun i => f ⟨i.val % 5, Nat.mod_lt _ (by decide)⟩ ⟨i.val / 5, by omega⟩

/-- `rotl64(v, s)`, defined on 0 <= `s` <= 63 only; `s` = 0 is a defined no-op (R110). -/
def rotl64 (v : Lane) (s : Fin 64) : Lane :=
  if s.val = 0 then v else (v <<< s.val) ||| (v >>> (64 - s.val))

/-- The column parities `C[0..4]`, all computed from the input state (R113). -/
def thetaC (S : Lanes) : Vector Lane 5 :=
  Vector.ofFn fun x => laneAt S x 0 ^^^ laneAt S x 1 ^^^ laneAt S x 2 ^^^ laneAt S x 3 ^^^ laneAt S x 4

/-- `D[0..4]`, computed from those parities; indices are mod 5 (R113). -/
def thetaD (S : Lanes) : Vector Lane 5 :=
  Vector.ofFn fun x => (thetaC S)[x + 4] ^^^ rotl64 (thetaC S)[x + 1] 1

/-- `Theta(S)` (R113). -/
def theta (S : Lanes) : Lanes := lanesOf fun x y => laneAt S x y ^^^ (thetaD S)[x]

/-- `RhoPi(T)` read by destination: the lane that moves to (u, v) is the one at source (x, y) with `y = u`
and `2*x + 3*y = v` mod 5, which is `x = u + 3*v` (R114, R116). -/
def rhoPi (T : Lanes) : Lanes :=
  lanesOf fun u v => rotl64 (laneAt T (u + 3 * v) u) (rho (u + 3 * v) u)

/-- `Chi(B)`, from a snapshot of the rows (R117). -/
def chi (B : Lanes) : Lanes :=
  lanesOf fun x y => laneAt B x y ^^^ (~~~(laneAt B (x + 1) y) &&& laneAt B (x + 2) y)

/-- `Iota(X, r)`: the round constant into lane 0 only (R118). -/
def iota (X : Lanes) (r : Fin 24) : Lanes := X.set 0 (X[0] ^^^ rc r)

/-- `Round(S, r)` (R112, R120). -/
def round (S : Lanes) (r : Fin 24) : Lanes := iota (chi (rhoPi (theta S))) r

/-- `KeccakF(S)`: the 24 rounds in ascending order (R121). Irreducible, so that no proof about the engine
runs the rounds unless it unfolds this definition. -/
@[irreducible] def keccakF (S : Lanes) : Lanes := (List.finRange 24).foldl round S

end Sys2Proof.Machine
end

