-- ==== Sys2Proof/Machine/Operands.lean ====
section
/-! DEFINITION. How the bytes of a command and of the buffer are read and written: the one immediate, the
buffer's byte store and word read, and the bytes of a lane (spec/20_memory.md R30 to R35). There are no
register operands and no addresses (R40, R51). -/

namespace Sys2Proof.Machine

/-- The message byte of `ABSORB imm8`: the immediate as is, with no extension and no scaling (R53). -/
def messageByte (imm8 : Byte) : Byte := imm8

/-- Buffer byte `8*i + j`, the byte `j` of the word for lane `i` (R41). -/
def blockByte (blk : Block) (i : Fin 17) (j : Fin 8) : Byte := blk[8 * i.val + j.val]'(by omega)

/-- `MemRead(8*i, 8)`: the little-endian word `W[i]` that a block contributes to lane `i` (R31). -/
def memRead8 (blk : Block) (i : Fin 17) : Lane :=
  (blockByte blk i 0).setWidth 64
    ||| (blockByte blk i 1).setWidth 64 <<< 8
    ||| (blockByte blk i 2).setWidth 64 <<< 16
    ||| (blockByte blk i 3).setWidth 64 <<< 24
    ||| (blockByte blk i 4).setWidth 64 <<< 32
    ||| (blockByte blk i 5).setWidth 64 <<< 40
    ||| (blockByte blk i 6).setWidth 64 <<< 48
    ||| (blockByte blk i 7).setWidth 64 <<< 56

/-- `MemWrite(k, 1, b)`: `BUF[k] <- b` (R35). -/
def memWrite1 (blk : Block) (k : Fin 136) (b : Byte) : Block := blk.set k.val b

/-- Byte `j` of a lane in little-endian order: `(v >> (8*j)) & 0xFF` (R95). -/
def laneByte (v : Lane) (j : Fin 8) : Byte := (v >>> (8 * j.val)).setWidth 8

end Sys2Proof.Machine
end

