-- ==== Sys2Proof/Machine/Flags.lean ====
section
/-! DEFINITION. The flags and the words made of them: `PHASE`, the sticky error bits, the STATUS register
and the response word (spec/10_state.md R16, R17, R19; 30_encoding.md R57). No flag is an arithmetic
condition code (R111). -/

namespace Sys2Proof.Machine

/-- `PHASE` as its bit (R16). -/
def Phase.bit : Phase → BitVec 1
  | .absorbing => 0
  | .finalized => 1

/-- The code of a cause (R150). -/
def Cause.code : Cause → BitVec 2
  | .alreadyFinalized => 1
  | .illegalCommand => 2

/-- `STATUS = {CNT[7:0], 0b00000, ERR_ILLEGAL, ERR_FINALIZED, PHASE}` (R19). -/
def Engine.status (e : Engine) : BitVec 16 :=
  BitVec.ofNat 8 e.cnt.val ++ 0#5 ++ BitVec.ofBool e.errIllegal ++ BitVec.ofBool e.errFinalized ++ e.phase.bit

/-- The response word `rsp[3:0]`: cause in `rsp[3:2]`, kind in `rsp[1:0]` (R57). -/
def Response.rsp : Response → BitVec 4
  | .ok => 0#2 ++ 0#2
  | .digest _ => 0#2 ++ 1#2
  | .error c => c.code ++ 2#2

/-- Set the sticky bit of a cause, and that bit alone (R152). -/
def Engine.setSticky (e : Engine) : Cause → Engine
  | .alreadyFinalized => { e with errFinalized := true }
  | .illegalCommand => { e with errIllegal := true }

/-- The sticky bit of a cause (R17, R150). -/
def Engine.sticky (e : Engine) : Cause → Bool
  | .alreadyFinalized => e.errFinalized
  | .illegalCommand => e.errIllegal

/-- The DIGEST port is valid exactly when `PHASE` = 1 (R20). -/
def Engine.digestValid (e : Engine) : Bool :=
  match e.phase with
  | .absorbing => false
  | .finalized => true

end Sys2Proof.Machine
end

