-- ==== Sys2Proof/Machine/Ops.lean ====
section
/-! DEFINITION. The operations that the commands share: the absorb step (spec/40_reset_update_absorb.md R74,
R75), the padding and the squeeze (41_finalize_padding_squeeze.md R91, R95), the DIGEST port (10_state.md
R20), the response to the host (30_encoding.md R57) and the refusal of a command (60_exceptions.md R152).
There is no return from a refusal, because there is no handler to return from (R155).
The operations on whole blocks are irreducible: Laws/Ops.lean says what each byte and lane of them is. -/

namespace Sys2Proof.Machine

/-- `XorBlock(S, blk)`: the 17 words of a block into lanes 0 to 16; lanes 17 to 24 are kept (R74). -/
@[irreducible] def xorBlock (S : Lanes) (blk : Block) : Lanes :=
  Vector.ofFn fun i => if h : i.val < 17 then S[i.val] ^^^ memRead8 blk ⟨i.val, h⟩ else S[i.val]

/-- The lanes after one block is absorbed: XOR, then the permutation once (R75). -/
def absorbLanes (S : Lanes) (blk : Block) : Lanes := keccakF (xorBlock S blk)

/-- `AbsorbBlock()`: it reads all of `BUF`, changes no buffer byte and drains the count (R75, D14). -/
def Engine.absorbBlock (e : Engine) : Engine := { e with lanes := absorbLanes e.lanes e.buf, cnt := 0 }

/-- One accepted message byte: `BUF[CNT] <- b`, `CNT <- CNT + 1`, and the absorb step when that reaches 136
(R71). The transient count 136 is seen by no one (R14). -/
def Engine.acceptByte (e : Engine) (b : Byte) : Engine :=
  if h : e.cnt.val + 1 < 136 then { e with buf := memWrite1 e.buf e.cnt b, cnt := ⟨e.cnt.val + 1, h⟩ }
  else Engine.absorbBlock { e with buf := memWrite1 e.buf e.cnt b }

/-- The padding marker byte (R91 step 1; R3). -/
def markerByte : Byte := 0x01

/-- The padding terminator (R91 step 3; R3). -/
def terminatorByte : Byte := 0x80

/-- `BUF[k] <- 0` for every `k` in `n..135` (R90). -/
def zeroFrom (blk : Block) (n : Fin 136) : Block :=
  Vector.ofFn fun k => if k.val < n.val then blk[k.val] else 0

/-- `BUF[k] <- BUF[k] | v` (R90). -/
def orByte (blk : Block) (k : Fin 136) (v : Byte) : Block := blk.set k.val (blk[k.val] ||| v)

/-- The padding that `FINALIZE` writes into the buffer after `n` pending bytes: zeroes, then the marker,
then the terminator, which fall on one byte when `n` = 135 (R90, R92, D13). -/
@[irreducible] def padInPlace (blk : Block) (n : Fin 136) : Block :=
  orByte (orByte (zeroFrom blk n) n markerByte) 135 terminatorByte

/-- The engine with its buffer padded (R90 step 1). -/
def Engine.pad (e : Engine) : Engine := { e with buf := padInPlace e.buf e.cnt }

/-- `Squeeze(S)`: `d[8*i + j]` is byte `j` of lane `i`, lanes 0 to 3 (R95). -/
@[irreducible] def squeeze (S : Lanes) : Digest :=
  Vector.ofFn fun k => laneByte (S[k.val / 8]'(by omega)) ⟨k.val % 8, Nat.mod_lt _ (by decide)⟩

/-- What the DIGEST port shows when it is valid: `DIGEST[64*i+63 : 64*i] = A[i]` for `i` = 0..3 (R20). -/
def digestWord (S : Lanes) : BitVec 256 := S[3] ++ S[2] ++ S[1] ++ S[0]

/-- The DIGEST port: no value while `PHASE` = 0 (R20). -/
def Engine.digestPort (e : Engine) : Option (BitVec 256) :=
  if e.digestValid then some (digestWord e.lanes) else none

/-- The pending message bytes `BUF[0] .. BUF[CNT-1]`, in the order they were absorbed (R14). -/
def Engine.pendingBytes (e : Engine) : List Byte := e.buf.toList.take e.cnt.val

/-- Show one output to the host. -/
def State.emit (s : State) (o : PortOutput) : State := { s with outputs := s.outputs ++ [o] }

/-- `respond r`: the one response of a command (R50, R57). -/
def State.respond (s : State) (r : Response) : State := s.emit (.response r)

/-- A command that succeeds: the engine takes its new state and the response is given. -/
def commit (e : Engine) (r : Response) (s : State) : Host.Outcome State Fault Refusal :=
  .next ({ s with engine := e }.respond r)

/-- `raise UsageError(cause)`: the command is refused. The sticky bit of the cause is set, nothing else of
the engine changes, the response is `ERROR(cause)`, and the next command is accepted normally (R152). -/
def raiseUsageError (c : Cause) (s : State) : Host.Outcome State Fault Refusal :=
  commit (s.engine.setSticky c) (.error c) s

end Sys2Proof.Machine
end

