-- ==== Sys2Proof/Machine/Absorption.lean ====
section
/-! DEFINITION. `RESET` and `ABSORB` (spec/40_reset_update_absorb.md R70, R71). -/

namespace Sys2Proof.Machine

/-- `RESET`: the initial state, whatever came before, in either phase; it never fails (R70, R24). -/
def execReset (s : State) : Host.Outcome State Fault Refusal := commit .reset .ok s

/-- `ABSORB imm8`: refused with cause 1 when `PHASE` = 1, else one message byte is accepted (R71, R151). -/
def execAbsorb (imm8 : Byte) (s : State) : Host.Outcome State Fault Refusal :=
  match s.engine.phase with
  | .finalized => raiseUsageError .alreadyFinalized s
  | .absorbing => commit (s.engine.acceptByte (messageByte imm8)) .ok s

end Sys2Proof.Machine
end

