-- ==== Sys2Proof/Machine/Finalization.lean ====
section
/-! DEFINITION. `FINALIZE` (spec/41_finalize_padding_squeeze.md R90). -/

namespace Sys2Proof.Machine

/-- The engine after a successful `FINALIZE`: pad, absorb exactly once, become FINALIZED (R90, R97). -/
def Engine.finalize (e : Engine) : Engine := { e.pad.absorbBlock with phase := .finalized }

/-- `FINALIZE`: refused with cause 1 when `PHASE` = 1, else the padded block is absorbed and the digest is
the response (R90, R151). -/
def execFinalize (s : State) : Host.Outcome State Fault Refusal :=
  match s.engine.phase with
  | .finalized => raiseUsageError .alreadyFinalized s
  | .absorbing => commit s.engine.finalize (.digest (squeeze s.engine.finalize.lanes)) s

end Sys2Proof.Machine
end

