-- ==== Sys2Proof/Machine/Illegal.lean ====
section
/-! DEFINITION. The reserved opcode (spec/60_exceptions.md R153, R154; 30_encoding.md R55). -/

namespace Sys2Proof.Machine

/-- A reserved word: refused with cause 2 in either phase; no other check is made (R153, R154). -/
def execReserved (s : State) : Host.Outcome State Fault Refusal := raiseUsageError .illegalCommand s

end Sys2Proof.Machine
end

