-- ==== Sys2Proof/Machine/Dispatch.lean ====
section
/-! DEFINITION. The meaning of every command, one arm per constructor of `Instr`. -/

namespace Sys2Proof.Machine

def exec (i : Instr) (s : State) : Host.Outcome State Fault Refusal :=
  match i with
  | .reset => Sys2Proof.Machine.execReset s
  | .absorb imm8 => Sys2Proof.Machine.execAbsorb imm8 s
  | .finalize => Sys2Proof.Machine.execFinalize s
  | .reserved => Sys2Proof.Machine.execReserved s

end Sys2Proof.Machine
end

