-- ==== Sys2Proof/WellFormed.lean ====
section
/-! DEFINITION. Which commands and raw words are well formed (spec/30_encoding.md R51, R54, R55, R59). -/

namespace Sys2Proof

/-- A command that an assembler may emit under a mnemonic: one with a canonical encoding. All 256 values
of `imm8` are legal (R53). The reserved opcode has none: spec/opcode_table.json gives its row
"canonical": "none" and calls it "Not an instruction". It still decodes, and it still has its meaning. -/
def Instr.wellFormed : Instr → Bool
  | .reset => true
  | .absorb _ => true
  | .finalize => true
  | .reserved => false

/-- A raw value that fits the command port: 10 bits, 0x000..0x3FF (R51, R59). -/
def wordFits (w : Nat) : Bool := w < 1024

end Sys2Proof
end

