-- ==== Sys2Proof/Decode.lean ====
section
/-! DEFINITION. Decoding and encoding of command words (spec/30_encoding.md R51 to R56). There is no
instruction memory and no fetch byte order (R30, R46): a command is presented whole, as one 10-bit word. -/

namespace Sys2Proof

/-- The opcode field `cmd[9:8]` (R51). -/
def opField (w : CommandWord) : BitVec 2 := w.extractLsb' 8 2

/-- The immediate field `cmd[7:0]`, used as is (R51, R53). -/
def immField (w : CommandWord) : Byte := w.extractLsb' 0 8

/-- Decoding of a command word: total, and it reads no state (R52, R56). `imm8` is ignored but for
`ABSORB` (R54, R55). -/
def decode (w : CommandWord) : Instr :=
  if opField w = 0 then .reset
  else if opField w = 1 then .absorb (immField w)
  else if opField w = 2 then .finalize
  else .reserved

/-- Why a raw value is no command word. -/
inductive DecodeError where
  /-- The value has a bit above bit 9: no such word can be presented on the 10-bit port (R51). -/
  | wordTooWide
  deriving DecidableEq, Repr

/-- Decoding of any raw value: a value of at most 10 bits is decoded, a wider one is rejected by name. -/
def decodeRaw (w : Nat) : Except DecodeError Instr :=
  if wordFits w then .ok (decode (BitVec.ofNat 10 w)) else .error .wordTooWide

/-- One row of the opcode map: a word `w` selects the row when `w &&& mask = pattern` (R52). -/
structure OpcodeRow where
  pattern : CommandWord
  mask : CommandWord
  deriving DecidableEq, Repr

/-- The row of the opcode map that each command is read from (R52, spec/opcode_table.json). -/
def Instr.row : Instr → OpcodeRow
  | .reset => ⟨0x000, 0x300⟩
  | .absorb _ => ⟨0x100, 0x300⟩
  | .finalize => ⟨0x200, 0x300⟩
  | .reserved => ⟨0x300, 0x300⟩

/-- A word of a given opcode and immediate: `{op, imm8}` (R51). -/
def commandWord (op : BitVec 2) (imm8 : Byte) : CommandWord := op ++ imm8

/-- The canonical word of a command (R54). The reserved opcode has no canonical word; `0x300`, the first
of its 256 words, stands for it here (assumption log 4). -/
def encode : Instr → CommandWord
  | .reset => commandWord 0 0
  | .absorb imm8 => commandWord 1 imm8
  | .finalize => commandWord 2 0
  | .reserved => commandWord 3 0

/-- The command that the decoder reads from a table word given as a number: `nbits` bits of it are given,
the bits above them are 0 and so are all bits of a 10-bit word that are not given. -/
def decodeTableWord (nbits w : Nat) : Option Instr :=
  match decodeRaw (w % 2 ^ nbits) with
  | .ok i => some i
  | .error _ => none

end Sys2Proof
end

