-- ==== Sys2Proof/Machine/Port.lean ====
section
/-! DEFINITION. What the host does on the ports: presenting a command word, reading STATUS, reading DIGEST,
asserting power-on reset (spec/30_encoding.md R50; 10_state.md R19, R20; 70_reset_and_hazards.md R170). -/

namespace Sys2Proof.Machine

/-- The next action of the host, with the state in which it has been taken off the head of the list
(R18, R43); none when the host presents nothing. -/
def State.takeAction (s : State) : Option (HostAction × State) :=
  match s.pending with
  | [] => none
  | a :: rest => some (a, { s with pending := rest })

/-- A read of STATUS: no side effect, cannot fail (R19, R36). -/
def readStatus (s : State) : Host.Outcome State Fault Refusal := .next (s.emit (.status s.engine.status))

/-- A read of DIGEST: no side effect; it has no value while `PHASE` = 0, and is then refused (R20, U4). -/
def readDigest (s : State) : Host.Outcome State Fault Refusal :=
  match s.engine.digestPort with
  | some v => .next (s.emit (.digest v))
  | none => .refused .digestNotValid

/-- Power-on reset: the effect of `RESET` on the engine; not a command, so no response (R170). -/
def powerOnReset (s : State) : Host.Outcome State Fault Refusal := .next { s with engine := .reset }

/-- The command a presented word stands for (R56). -/
def commandOf (w : CommandWord) : Instr := decode w

/-- The host presents some words, in order, before whatever it presents next (R50). -/
def State.present (s : State) (ws : List CommandWord) : State :=
  { s with pending := ws.map .command ++ s.pending }

/-- Does this action return the engine to its reset state: `RESET` or power-on reset (R170)? -/
def HostAction.resets : HostAction → Bool
  | .command w =>
    match commandOf w with
    | .reset => true
    | .absorb _ => false
    | .finalize => false
    | .reserved => false
  | .readStatus => false
  | .readDigest => false
  | .powerOnReset => true

/-- The word the host presents first when a table word is given as a number. -/
def fetchWord (nbits w : Nat) : CommandWord := BitVec.ofNat 10 (w % 2 ^ nbits)

end Sys2Proof.Machine
end

