-- ==== Sys2Proof/Machine/Step.lean ====
section
/-! DEFINITION. One step: the engine takes the host's next action to completion (spec/20_memory.md R43, R44;
10_state.md R18). -/

namespace Sys2Proof.Machine

/-- One step. A presented word is decoded and executed (R50). When nothing is presented the engine "holds
its state unchanged indefinitely" (R162). -/
def step (s : State) : Host.Outcome State Fault Refusal :=
  match s.takeAction with
  | none => .next s
  | some (.command w, s') => exec (commandOf w) s'
  | some (.readStatus, s') => readStatus s'
  | some (.readDigest, s') => readDigest s'
  | some (.powerOnReset, s') => powerOnReset s'

/-- `s` with one more command word at the head of what the host presents: the very next step runs it. -/
def State.withFetchWord (s : State) (nbits w : Nat) : State := s.present [fetchWord nbits w]

end Sys2Proof.Machine
end

