-- ==== Sys2Proof/Machine/Hash.lean ====
section
/-! DEFINITION. The functions on whole messages: `PadBlock` (spec/41_finalize_padding_squeeze.md R91), the
lanes after a message (40_reset_update_absorb.md R79), `Keccak256` (43_oneshot_hash.md R141), the command
sequences of `update` and of the one-shot hash (R76, R140) and `Hex` (R100). -/

namespace Sys2Proof.Machine

/-- `PadBlock(p)` for 0 <= `n` <= 135 pending bytes `p`, by the cases of R91. -/
@[irreducible] def padBlock (p : List Byte) : Block :=
  Vector.ofFn fun k =>
    if h : k.val < p.length then p[k.val]
    else if k.val < 135 then (if k.val = p.length then 0x01 else 0x00)
    else (if p.length = 135 then 0x81 else 0x80)

/-- The first 136 bytes of a sequence of at least 136, as a block: `m[0..136)` (R141). -/
@[irreducible] def firstBlock (m : List Byte) : Block := Vector.ofFn fun k => m.getD k.val 0

/-- The lanes after the first `q` full blocks of `m`, from the lanes `S`: `S_(j+1)` is
`KeccakF(XorBlock(S_j, m[136*j .. 136*j+136)))` (R79). -/
def absorbBlocks : Nat → Lanes → List Byte → Lanes
  | 0, S, _ => S
  | q + 1, S, m => absorbBlocks q (absorbLanes S (firstBlock m)) (m.drop 136)

/-- The full blocks of a message: `q` in `n = 136*q + t` (R79). -/
def fullBlocks (m : List Byte) : Nat := m.length / Config.rate

/-- `S_q`: the lanes once every full block of `m` is absorbed into the all-zero state (R79). -/
def messageLanes (m : List Byte) : Lanes := absorbBlocks (fullBlocks m) zeroLanes m

/-- The last `t` bytes of `m`, those of no full block: `m[136*q .. n)` (R79, R96). -/
def messageTail (m : List Byte) : List Byte := m.drop (Config.rate * fullBlocks m)

/-- The lanes once the padded last block of `m` is absorbed too (R96). -/
def finalLanes (m : List Byte) : Lanes := absorbLanes (messageLanes m) (padBlock (messageTail m))

/-- `Keccak256(m)` (R96, R141). -/
def keccak256 (m : List Byte) : Digest := squeeze (finalLanes m)

/-- `update(data)`: one `ABSORB` per byte in order, no command at all for an empty chunk (R76, R78). -/
def updateWords (data : List Byte) : List CommandWord := data.map fun b => encode (.absorb b)

/-- `HASH data`: `RESET`, the bytes, `FINALIZE` (R140). -/
def hashWords (data : List Byte) : List CommandWord :=
  encode .reset :: updateWords data ++ [encode .finalize]

/-- One lowercase hexadecimal digit (R100). -/
def hexDigit (v : BitVec 4) : Char :=
  if v.toNat < 10 then Char.ofNat (48 + v.toNat) else Char.ofNat (87 + v.toNat)

/-- The two characters of a byte, most significant nibble first (R100). -/
def hexByte (b : Byte) : List Char := [hexDigit (b.extractLsb' 4 4), hexDigit (b.extractLsb' 0 4)]

/-- `Hex(d)`: the host's rendering of a digest (R100, D22). -/
def hex (d : Digest) : List Char := d.toList.flatMap hexByte

end Sys2Proof.Machine
end

