-- ==== Sys2Proof/Machine/Assembler.lean ====
section
/-! DEFINITION. The assembler text of the spec and its expansion to command words (spec/30_encoding.md R59,
R60). It stands outside the engine: the engine sees command words only. Text is a list of characters.
The spec gives no grammar; every point of the text that R59 and R60 leave open is named in assumption log 9. -/

namespace Sys2Proof.Machine

/-- One line of assembler text (R59, R60). -/
inductive AsmLine where
  /-- A line with no command: blank, a comment, or `HEX`, which is no command (R60). -/
  | empty
  | reset
  | absorb (b : Byte)
  | finalize
  /-- `.word <value>`: a raw command word (R59). -/
  | word (w : CommandWord)
  /-- `UPDATE`: one `ABSORB` per byte (R60). -/
  | update (data : List Byte)
  /-- `HASH`: the one-shot hash (R60, R140). -/
  | hash (data : List Byte)
  deriving DecidableEq, Repr

/-- The command words of a line; an assembler emits the canonical encodings (R54, R59, R60). -/
def AsmLine.words : AsmLine → List CommandWord
  | .empty => []
  | .reset => [encode .reset]
  | .absorb b => [encode (.absorb b)]
  | .finalize => [encode .finalize]
  | .word w => [w]
  | .update data => updateWords data
  | .hash data => hashWords data

def spaceChar : Char := Char.ofNat 32
def newlineChar : Char := Char.ofNat 10
def quoteChar : Char := Char.ofNat 39
def stringChar : Char := Char.ofNat 34

/-- A character as its raw byte: ASCII only (R60, N16, U10). -/
def asciiByte (c : Char) : Option Byte := if c.toNat < 128 then some (BitVec.ofNat 8 c.toNat) else none

/-- The value of a digit of base 10 or 16. -/
def digitValue (base : Nat) (c : Char) : Option Nat :=
  let n := c.toNat
  let v := if 48 ≤ n ∧ n ≤ 57 then n - 48
    else if 65 ≤ n ∧ n ≤ 70 then n - 55
    else if 97 ≤ n ∧ n ≤ 102 then n - 87
    else base
  if v < base then some v else none

/-- The value of a nonempty run of digits, of any length and with leading zeros allowed (DESIGN CHOICE,
assumption log 9). -/
def digitsValue (base : Nat) (cs : List Char) : Option Nat :=
  if cs.isEmpty then none
  else cs.foldl (fun acc c => match acc, digitValue base c with
    | some a, some d => some (a * base + d)
    | _, _ => none) (some 0)

/-- A number, `0xNN` or decimal (R59). DESIGN CHOICE (assumption log 9): the notation of R59's bytes serves
`.word` too, for which R59 says no notation beyond `0x000..0x3FF`. -/
def parseNumber : List Char → Option Nat
  | '0' :: 'x' :: cs => digitsValue 16 cs
  | cs => digitsValue 10 cs

/-- A byte: a number 0..255, or one ASCII character in quotes (R59). -/
def parseByte (cs : List Char) : Option Byte :=
  match cs with
  | [q, c, q'] => if q = quoteChar ∧ q' = quoteChar then asciiByte c else number cs
  | _ => number cs
where
  number (cs : List Char) : Option Byte :=
    match parseNumber cs with
    | some n => if n < 256 then some (BitVec.ofNat 8 n) else none
    | none => none

/-- Every member of a list read, or none. -/
def allSome {α : Type} : List (Option α) → Option (List α)
  | [] => some []
  | none :: _ => none
  | some a :: rest => (allSome rest).map (a :: ·)

/-- Blanks dropped at both ends. -/
def trim (cs : List Char) : List Char :=
  ((cs.dropWhile (· = spaceChar)).reverse.dropWhile (· = spaceChar)).reverse

/-- Where a scan of a line stands. -/
inductive Quoting where
  | outside
  /-- Inside a string in double quotes. -/
  | inString
  /-- Inside a character literal, with this many of its characters to come. -/
  | inLiteral (left : Nat)
  deriving DecidableEq, Repr

/-- Does a character literal begin here: an apostrophe, any one character, an apostrophe (R59)? That the one
character may itself be an apostrophe is the model's choice (DESIGN CHOICE, assumption log 9). -/
def startsLiteral : List Char → Bool
  | q :: _ :: q' :: _ => q = quoteChar && q' = quoteChar
  | _ => false

/-- The pieces between the separators that stand outside quotes. DESIGN CHOICE (assumption log 9): quotes pair
from left to right; outside a string, an apostrophe opens a literal exactly when the next character but one
is an apostrophe, and the literal is those three characters; any other apostrophe is a plain character. -/
def splitOutside (sep : Char) : Quoting → List Char → List Char → List (List Char)
  | _, piece, [] => [piece.reverse]
  | .inLiteral left, piece, c :: cs =>
    splitOutside sep (if left ≤ 1 then .outside else .inLiteral (left - 1)) (c :: piece) cs
  | .inString, piece, c :: cs => splitOutside sep (if c = stringChar then .outside else .inString) (c :: piece) cs
  | .outside, piece, c :: cs =>
    if startsLiteral (c :: cs) then splitOutside sep (.inLiteral 2) (c :: piece) cs
    else if c = sep then piece.reverse :: splitOutside sep .outside [] cs
    else splitOutside sep (if c = stringChar then .inString else .outside) (c :: piece) cs

/-- The bytes after `UPDATE` or `HASH`: a string in double quotes, or bytes with commas between (R60). -/
def parseData (cs : List Char) : Option (List Byte) :=
  match cs with
  | [] => some []
  | c :: rest =>
    if c = stringChar then
      match rest.reverse with
      | c' :: middle =>
        if c' = stringChar ∧ ¬ middle.contains stringChar then allSome (middle.reverse.map asciiByte) else none
      | [] => none
    else allSome ((splitOutside ',' .outside [] cs).map fun p => parseByte (trim p))

/-- The statement of a line, its comment and outer blanks gone (R59, R60). -/
def parseStatement (cs : List Char) : Option AsmLine :=
  let mnemonic := cs.takeWhile (· ≠ spaceChar)
  let operand := trim (cs.dropWhile (· ≠ spaceChar))
  if cs.isEmpty then some .empty
  else if mnemonic = ['R', 'E', 'S', 'E', 'T'] then if operand.isEmpty then some .reset else none
  else if mnemonic = ['A', 'B', 'S', 'O', 'R', 'B'] then (parseByte operand).map .absorb
  else if mnemonic = ['F', 'I', 'N', 'A', 'L', 'I', 'Z', 'E'] then
    if operand.isEmpty then some .finalize else none
  else if mnemonic = ['H', 'E', 'X'] then if operand.isEmpty then some .empty else none
  else if mnemonic = ['U', 'P', 'D', 'A', 'T', 'E'] then (parseData operand).map .update
  else if mnemonic = ['H', 'A', 'S', 'H'] then (parseData operand).map .hash
  else if mnemonic = ['.', 'w', 'o', 'r', 'd'] then
    match parseNumber operand with
    | some n => if wordFits n then some (.word (BitVec.ofNat 10 n)) else none
    | none => none
  else none

/-- The lines of a text. -/
def splitLines : List Char → List Char → List (List Char)
  | piece, [] => [piece.reverse]
  | piece, c :: cs => if c = newlineChar then piece.reverse :: splitLines [] cs else splitLines (c :: piece) cs

/-- One line: text after a semicolon outside quotes is a comment (R59). -/
def parseLine (cs : List Char) : Option AsmLine :=
  parseStatement (trim ((splitOutside ';' .outside [] cs).headD []))

/-- Every line of a text to its command words, or none when a line is no line of the syntax (R59). -/
def assemble (text : List Char) : Option (List CommandWord) :=
  (allSome ((splitLines [] text).map parseLine)).map fun ls => ls.flatMap AsmLine.words

end Sys2Proof.Machine
end

