-- ==== Sys2Proof/Machine/System.lean ====
section
/-! DEFINITION. Runs of one engine, and systems of `n` independent engines, `n` the spec's open parameter
NUM_ENGINES (spec/60_exceptions.md R163; 10_state.md R25; 20_memory.md R43). -/

namespace Sys2Proof.Machine

/-- `k` steps of one engine (R43). -/
def run : Nat → State → Host.Outcome State Fault Refusal
  | 0, s => .next s
  | k + 1, s =>
    match step s with
    | .next t => run k t
    | .fault f => .fault f
    | .refused r => .refused r

/-- One more step of an engine from what its steps have come to so far; an engine whose last step was refused
takes no further step. -/
def advance : Host.Outcome State Fault Refusal → Host.Outcome State Fault Refusal
  | .next s => step s
  | .fault f => .fault f
  | .refused r => .refused r

/-- `n` engine instances, each with its own complete state and its own ports (R25, R163): for each instance,
what its own steps have come to so far. An instance that stops stops alone (R163). -/
abbrev System (n : Nat) := Vector (Host.Outcome State Fault Refusal) n

/-- The system whose instances are in these states. -/
def systemOf {n : Nat} (states : Vector State n) : System n := states.map .next

/-- Every instance after its own power-on reset (R163: each is ready after its own reset). -/
def systemReset (n : Nat) : System n := systemOf (Vector.replicate n State.reset)

/-- One step of instance `i`, the others untouched, whatever that step answers (R25, R163). -/
def systemStep {n : Nat} (S : System n) (i : Fin n) : System n := S.set i.val (advance S[i.val])

/-- The steps of a schedule, which names the instance that takes each step (R163: any interleaving). -/
def systemRun {n : Nat} (schedule : List (Fin n)) (S : System n) : System n := schedule.foldl systemStep S

end Sys2Proof.Machine
end

