-- ==== Sys2Proof/Safety.lean ====
section
/-! DEFINITION. What claims mean by a legal engine state and by a safe run (spec/70_reset_and_hazards.md
R175; 40_reset_update_absorb.md R79; 41_finalize_padding_squeeze.md R97; 60_exceptions.md R150). -/

namespace Sys2Proof.Machine

/-- The invariants of R175 that relate fields of the engine: (b) `PHASE` = 1 implies `CNT` = 0, and
(c) `PHASE` = 0 implies `ERR_FINALIZED` = 0. Clause (a), `CNT` <= 135, holds by the type of `cnt`. -/
structure Engine.Legal (e : Engine) : Prop where
  finalizedDrained : e.phase = .finalized → e.cnt = 0
  absorbingUnrefused : e.phase = .absorbing → e.errFinalized = false

/-- The engine is as a message leaves it. In the ABSORBING phase the message is `m` and the state is R79's
function of it; in the FINALIZED phase it is what `FINALIZE` makes of `m` (R96, R97). -/
structure Engine.HoldsMessage (e : Engine) (m : List Byte) : Prop where
  cnt : e.phase = .absorbing → e.cnt.val = m.length % 136
  pending : e.phase = .absorbing → e.pendingBytes = messageTail m
  lanes : e.phase = .absorbing → e.lanes = messageLanes m
  drained : e.phase = .finalized → e.cnt = 0
  digest : e.phase = .finalized → e.lanes = finalLanes m
  padded : e.phase = .finalized → e.buf = padBlock (messageTail m)

/-- The message that the engine holds after one action of the host, when it held `m`: an accepted `ABSORB`
appends its byte (R71), a reset empties it (R70, R170), and nothing else changes it. -/
def messageAfter (a : HostAction) (phase : Phase) (m : List Byte) : List Byte :=
  match a with
  | .readStatus => m
  | .readDigest => m
  | .powerOnReset => []
  | .command w =>
    match commandOf w, phase with
    | .reset, _ => []
    | .absorb b, .absorbing => m ++ [messageByte b]
    | .absorb _, .finalized => m
    | .finalize, _ => m
    | .reserved, _ => m

/-- Is the command refused in this phase: a reserved word always, `ABSORB` and `FINALIZE` when `PHASE` = 1
(R151, R153)? If so, its cause; decode is checked before the phase (R154). -/
def refusalCause (i : Instr) (phase : Phase) : Option Cause :=
  match i, phase with
  | .reserved, _ => some .illegalCommand
  | .reset, _ => none
  | .absorb _, .absorbing => none
  | .absorb _, .finalized => some .alreadyFinalized
  | .finalize, .absorbing => none
  | .finalize, .finalized => some .alreadyFinalized

/-- The message byte that an action carries into an engine in the ABSORBING phase. -/
def actionByte : HostAction → Option Byte
  | .command w =>
    match commandOf w with
    | .absorb b => some (messageByte b)
    | .reset => none
    | .finalize => none
    | .reserved => none
  | .readStatus => none
  | .readDigest => none
  | .powerOnReset => none

/-- An action that neither ends the message nor resets the engine nor reads DIGEST: `ABSORB`, a reserved
word, or a read of STATUS. -/
def keepsMessageOpen : HostAction → Bool
  | .command w =>
    match commandOf w with
    | .absorb _ => true
    | .reserved => true
    | .reset => false
    | .finalize => false
  | .readStatus => true
  | .readDigest => false
  | .powerOnReset => false

/-- Two engines that differ at most in stale buffer bytes, those at index `CNT` and above (R23). -/
structure Engine.AgreesUpToStale (e f : Engine) : Prop where
  lanes : e.lanes = f.lanes
  cnt : e.cnt = f.cnt
  phase : e.phase = f.phase
  errFinalized : e.errFinalized = f.errFinalized
  errIllegal : e.errIllegal = f.errIllegal
  occupied : ∀ k (h : k < 136), k < e.cnt.val → e.buf[k] = f.buf[k]

/-- A safe run, as the host sees it: no command was refused (R152: a refusal responds `ERROR(cause)`). -/
def noCommandRefused (outputs : List PortOutput) : Prop :=
  ∀ c, .response (.error c) ∉ outputs

end Sys2Proof.Machine
end

