-- ==== Sys2Proof/Certificates/Slice0/Obligations.lean ====
section
/-! DEFINITION. The statements for the provers. Each docstring names the rule of spec/ it formalises. A rule
that the spec itself marks "[derived: ...]" is cited by its section only, and its statement is 'derived'. -/

open Sys2Proof Sys2Proof.Machine

/-! ### Encoding -/

/-- R52: a word selects the row of the opcode map whose match it shows under the mask 0x300. -/
def Obligations.DecodeFollowsOpcodeMap : Prop :=
  ∀ w : CommandWord,
    (w &&& 0x300 = 0x000 → decode w = .reset) ∧
    (w &&& 0x300 = 0x100 → decode w = .absorb (w.extractLsb' 0 8)) ∧
    (w &&& 0x300 = 0x200 → decode w = .finalize) ∧
    (w &&& 0x300 = 0x300 → decode w = .reserved)

/-- 30_encoding.md section 3: every command is read back from the word it is encoded as, and the encodings
are the canonical ones. That 0x300 stands for the reserved opcode is the model's choice (log 4). -/
def Obligations.DecodeReadsBackEveryEncoding : Prop :=
  (∀ i : Instr, decode (encode i) = i ∧ decodeTableWord 10 (encode i).toNat = some i) ∧
  encode .reset = 0x000 ∧ encode .finalize = 0x200 ∧
  ∀ b : Byte, encode (.absorb b) = 0x100 ||| b.setWidth 10

/-- Words written out from the encodings of R51 and R52, as in 95_test_vectors.md T-ENC-1 to T-ENC-7. -/
def Obligations.SpecWordsDecodeAsListed : Prop :=
  decode 0b0000000000 = .reset ∧ decode 0b0010100111 = .reset ∧
  decode 0b0101100001 = .absorb 0x61 ∧ decode 0b0110000000 = .absorb 0x80 ∧
  decode 0b0100000000 = .absorb 0x00 ∧ decode 0b0111111111 = .absorb 0xFF ∧
  decode 0b1000000000 = .finalize ∧ decode 0b1011111111 = .finalize ∧
  decode 0b1100000000 = .reserved ∧ decode 0b1110100101 = .reserved ∧ decode 0b1111111111 = .reserved

/-- R54: for `RESET` and `FINALIZE` (and for the reserved opcode, R55) the immediate is ignored: all 256 words
of the opcode are one command with one effect in every state. The canonical words are those with `imm8` = 0. -/
def Obligations.ImmediateIgnoredUnlessAbsorb : Prop :=
  (∀ (w w' : CommandWord) (s : State), w &&& 0x300 = w' &&& 0x300 → w &&& 0x300 ≠ 0x100 →
    decode w = decode w' ∧ exec (decode w) s = exec (decode w') s) ∧
  encode .reset = 0x000 ∧ encode .finalize = 0x200

/-! ### The step -/

/-- R50: the engine executes the presented word; what `step` adds around `exec` is that the word is taken
off the head of what the host presents. With nothing presented the state is held (R162). The third clause is
the model's choice: that `withFetchWord` stands for the host presenting one word (log 5), and how a number is
read as a table word (log 11). -/
def Obligations.StepExecutesPresentedWord : Prop :=
  (∀ (s : State) (w : CommandWord) (rest : List HostAction), s.pending = .command w :: rest →
    step s = exec (decode w) { s with pending := rest }) ∧
  (∀ s : State, s.pending = [] → step s = .next s) ∧
  (∀ (s : State) (nbits w : Nat) (i : Instr), decodeTableWord nbits w = some i →
    step (s.withFetchWord nbits w) = exec i s)

/-- R36 with R19 and R20: a read of STATUS or of a valid DIGEST port shows its value and changes nothing of
the engine; a read of DIGEST in the ABSORBING phase has no value and is refused. -/
def Obligations.PortReadsChangeNothing : Prop :=
  ∀ (s : State) (rest : List HostAction),
    (s.pending = .readStatus :: rest →
      step s = .next ⟨s.engine, rest, s.outputs ++ [.status s.engine.status]⟩) ∧
    (s.pending = .readDigest :: rest → s.engine.phase = .finalized →
      step s = .next ⟨s.engine, rest, s.outputs ++ [.digest (digestWord s.engine.lanes)]⟩) ∧
    (s.pending = .readDigest :: rest → s.engine.phase = .absorbing → step s = .refused .digestNotValid)

/-- 70_reset_and_hazards.md R176, "there is no hang and no stuck state": a step always answers a next state,
but for a read of the DIGEST port that is not valid (R20). -/
def Obligations.StepStopsOnlyOnInvalidDigestRead : Prop :=
  ∀ s : State,
    ((∃ t, step s = .next t) ↔ ¬ (s.engine.phase = .absorbing ∧ ∃ rest, s.pending = .readDigest :: rest)) ∧
    ∀ r, step s = .refused r → r = .digestNotValid

/-- R43: the state after a sequence of commands is the left fold of the command rules over it, starting from
the state before it. -/
def Obligations.CommandSequenceIsLeftFold : Prop :=
  ∀ (ws : List CommandWord) (s : State),
    run ws.length (s.present ws) =
      ws.foldl (fun o w => match o with
        | .next t => exec (decode w) t
        | .fault f => .fault f
        | .refused r => .refused r) (.next s)

/-- 70_reset_and_hazards.md R174 (marked derived): the lifecycle as a transition table, every command in
both phases: the phase after, and the one response. -/
def Obligations.LifecycleTable : Prop :=
  ∀ (i : Instr) (s : State), ∃ t r, exec i s = .next t ∧ t.pending = s.pending ∧
    t.outputs = s.outputs ++ [.response r] ∧
    match s.engine.phase, i with
    | .absorbing, .reset => t.engine.phase = .absorbing ∧ r = .ok
    | .absorbing, .absorb _ => t.engine.phase = .absorbing ∧ r = .ok
    | .absorbing, .finalize => t.engine.phase = .finalized ∧ r = .digest (squeeze t.engine.lanes)
    | .absorbing, .reserved => t.engine.phase = .absorbing ∧ r = .error .illegalCommand
    | .finalized, .reset => t.engine.phase = .absorbing ∧ r = .ok
    | .finalized, .absorb _ => t.engine.phase = .finalized ∧ r = .error .alreadyFinalized
    | .finalized, .finalize => t.engine.phase = .finalized ∧ r = .error .alreadyFinalized
    | .finalized, .reserved => t.engine.phase = .finalized ∧ r = .error .illegalCommand

/-- R57: the response word of every response; no other value is produced. -/
def Obligations.ResponseWordValues : Prop :=
  Response.ok.rsp = 0x0 ∧ (∀ d, (Response.digest d).rsp = 0x1) ∧
  (Response.error .alreadyFinalized).rsp = 0x6 ∧ (Response.error .illegalCommand).rsp = 0xA ∧
  ∀ r : Response, r.rsp = 0x0 ∨ r.rsp = 0x1 ∨ r.rsp = 0x6 ∨ r.rsp = 0xA

/-! ### Reset -/

/-- R24: the state after power-on reset. That nothing is presented yet and nothing shown yet is the model's
choice (log 1). -/
def Obligations.ResetStateValues : Prop :=
  (∀ i (h : i < 25), State.reset.engine.lanes[i] = 0) ∧ (∀ k (h : k < 136), State.reset.engine.buf[k] = 0) ∧
  State.reset.engine.cnt = 0 ∧ State.reset.engine.phase = .absorbing ∧
  State.reset.engine.errFinalized = false ∧ State.reset.engine.errIllegal = false ∧
  State.reset.engine.status = 0x0000 ∧ State.reset.engine.digestPort = none ∧
  State.reset.pending = [] ∧ State.reset.outputs = []

/-- R70: `RESET` is legal in every state, responds `OK`, and zeroes the lanes, the buffer, the count and
the three flags. -/
def Obligations.ResetZeroesTheEngine : Prop :=
  ∀ s : State, ∃ t, exec .reset s = .next t ∧
    (∀ i (h : i < 25), t.engine.lanes[i] = 0) ∧ (∀ k (h : k < 136), t.engine.buf[k] = 0) ∧
    t.engine.cnt = 0 ∧ t.engine.phase = .absorbing ∧
    t.engine.errFinalized = false ∧ t.engine.errIllegal = false ∧
    t.pending = s.pending ∧ t.outputs = s.outputs ++ [.response .ok]

/-- R170: power-on reset has the effect of `RESET` on the engine; it is no command and returns no response.
That what the host goes on to present outlives it is the model's choice (log 5). -/
def Obligations.PowerOnResetActsAsReset : Prop :=
  ∀ (s : State) (rest : List HostAction), s.pending = .powerOnReset :: rest →
    ∃ t u, step s = .next t ∧ exec .reset { s with pending := rest } = .next u ∧
      t.engine = u.engine ∧ t.engine = State.reset.engine ∧ t.pending = rest ∧ t.outputs = s.outputs

/-- R143: what follows a `RESET` does not depend on any prior use: two engines in any two states, given a
`RESET` and then the same actions, end in the same state and have shown the same since; so does an engine
fresh from power-on reset that is given the same actions with no `RESET` before them. -/
def Obligations.ResetErasesPriorUse : Prop :=
  ∀ (s s' : State) (w : CommandWord) (later : List HostAction) (k : Nat) (t : State), decode w = .reset →
    run (k + 1) { s with pending := .command w :: later } = .next t →
    ∃ t' shown, run (k + 1) { s' with pending := .command w :: later } = .next t' ∧
      t'.engine = t.engine ∧ t'.pending = t.pending ∧
      t.outputs = s.outputs ++ .response .ok :: shown ∧ t'.outputs = s'.outputs ++ .response .ok :: shown ∧
      run k { State.reset with pending := later } = .next ⟨t.engine, t.pending, shown⟩

/-! ### ABSORB -/

/-- R71: in the ABSORBING phase `ABSORB` responds `OK` and appends its byte; when that fills the buffer, the
block is XORed into the lanes, the permutation runs once and the count returns to 0; else no lane changes.
In the FINALIZED phase it is refused, and only the sticky bit of cause 1 changes. -/
def Obligations.AbsorbAppendsByte : Prop :=
  ∀ (b : Byte) (s : State),
    (s.engine.phase = .finalized → exec (.absorb b) s = .next ⟨{ s.engine with errFinalized := true },
      s.pending, s.outputs ++ [.response (.error .alreadyFinalized)]⟩) ∧
    (s.engine.phase = .absorbing → ∃ t, exec (.absorb b) s = .next t ∧ t.outputs = s.outputs ++ [.response .ok] ∧ t.pending = s.pending ∧
      t.engine.buf = s.engine.buf.set s.engine.cnt.val b ∧
      (s.engine.cnt.val < 135 → t.engine.cnt.val = s.engine.cnt.val + 1 ∧ t.engine.lanes = s.engine.lanes) ∧
      (s.engine.cnt.val = 135 → t.engine.cnt.val = 0 ∧
        t.engine.lanes = keccakF (xorBlock s.engine.lanes (s.engine.buf.set 135 b))) ∧
      t.engine.phase = .absorbing ∧ t.engine.errFinalized = s.engine.errFinalized ∧
      t.engine.errIllegal = s.engine.errIllegal)

/-- The frame of `ABSORB` in both phases (R71, R152): it stores at most the one byte at index `CNT`, and no
byte when refused; the lanes change only with a full buffer; `PHASE` and `ERR_ILLEGAL` are unchanged, and
`ERR_FINALIZED` is unchanged unless the command is refused. -/
def Obligations.AbsorbFrame : Prop :=
  ∀ (b : Byte) (s t : State), exec (.absorb b) s = .next t →
    t.pending = s.pending ∧ t.engine.phase = s.engine.phase ∧ t.engine.errIllegal = s.engine.errIllegal ∧
    (s.engine.phase = .absorbing → t.engine.errFinalized = s.engine.errFinalized) ∧
    (∀ k (h : k < 136), ¬ (s.engine.phase = .absorbing ∧ k = s.engine.cnt.val) →
      t.engine.buf[k] = s.engine.buf[k]) ∧
    (¬ (s.engine.phase = .absorbing ∧ s.engine.cnt.val = 135) → t.engine.lanes = s.engine.lanes) ∧
    (s.engine.phase = .finalized → t.engine.cnt = s.engine.cnt)

/-! ### FINALIZE -/

/-- R90: in the ABSORBING phase `FINALIZE` leaves the padded block of the pending bytes in the buffer, has
absorbed it exactly once, becomes FINALIZED with count 0, and responds with the squeeze of the new lanes.
In the FINALIZED phase it is refused, and only the sticky bit of cause 1 changes. -/
def Obligations.FinalizePadsAbsorbsSqueezes : Prop :=
  ∀ s : State,
    (s.engine.phase = .finalized → exec .finalize s = .next ⟨{ s.engine with errFinalized := true },
      s.pending, s.outputs ++ [.response (.error .alreadyFinalized)]⟩) ∧
    (s.engine.phase = .absorbing → ∃ t, exec .finalize s = .next t ∧
      t.engine.buf = padBlock (s.engine.buf.toList.take s.engine.cnt.val) ∧
      t.engine.lanes =
        keccakF (xorBlock s.engine.lanes (padBlock (s.engine.buf.toList.take s.engine.cnt.val))) ∧
      t.engine.cnt = 0 ∧ t.engine.phase = .finalized ∧
      t.engine.errFinalized = s.engine.errFinalized ∧ t.engine.errIllegal = s.engine.errIllegal ∧
      t.pending = s.pending ∧ t.outputs = s.outputs ++ [.response (.digest (squeeze t.engine.lanes))])

/-- R91: `PadBlock` by its cases, for 0 to 135 pending bytes. -/
def Obligations.PadBlockByCases : Prop :=
  ∀ p : List Byte, p.length ≤ 135 →
    (∀ k (h : k < p.length) (h' : k < 136), (padBlock p)[k] = p[k]) ∧
    (∀ h : p.length < 135, (padBlock p)[p.length]'(by omega) = 0x01) ∧
    (∀ k (h : k < 135), p.length < k → (padBlock p)[k] = 0x00) ∧
    (p.length < 135 → (padBlock p)[135] = 0x80) ∧
    (p.length = 135 → (padBlock p)[135] = 0x81)

/-- R92: with 135 bytes pending the marker and the terminator fall on the one byte 135, which becomes 0x81;
no other byte is written, and the block is absorbed exactly once. -/
def Obligations.MarkerAndTerminatorShareByte135 : Prop :=
  ∀ s : State, s.engine.phase = .absorbing → s.engine.cnt.val = 135 →
    ∃ t, exec .finalize s = .next t ∧ t.engine.buf = s.engine.buf.set 135 0x81 ∧
      t.engine.lanes = keccakF (xorBlock s.engine.lanes (s.engine.buf.set 135 0x81)) ∧
      t.engine.cnt = 0 ∧ t.engine.phase = .finalized

/-- The frame of `FINALIZE` in both phases (R90, R152): pending message bytes stay in the buffer; a refused
`FINALIZE` changes nothing but `ERR_FINALIZED`; a successful one leaves both error bits. -/
def Obligations.FinalizeFrame : Prop :=
  ∀ s t : State, exec .finalize s = .next t →
    t.pending = s.pending ∧ t.engine.errIllegal = s.engine.errIllegal ∧
    (∀ k (h : k < 136), s.engine.phase = .finalized ∨ k < s.engine.cnt.val →
      t.engine.buf[k] = s.engine.buf[k]) ∧
    (s.engine.phase = .absorbing → t.engine.errFinalized = s.engine.errFinalized) ∧
    (s.engine.phase = .finalized →
      t.engine.lanes = s.engine.lanes ∧ t.engine.cnt = s.engine.cnt ∧ t.engine.phase = s.engine.phase)

/-- R98: the bytes of the `DIGEST(d)` response are the bytes of the DIGEST port from then on; a refused
`FINALIZE` returns no bytes and leaves the port as it is. -/
def Obligations.DigestResponseEqualsPort : Prop :=
  ∀ s : State,
    (s.engine.phase = .absorbing → ∃ t d v, exec .finalize s = .next t ∧
      t.outputs = s.outputs ++ [.response (.digest d)] ∧ d = squeeze t.engine.lanes ∧
      t.engine.digestPort = some v ∧
      ∀ k (h : k < 32), v.extractLsb' (8 * k) 8 = d[k]) ∧
    (s.engine.phase = .finalized → ∃ t, exec .finalize s = .next t ∧
      t.engine.digestPort = s.engine.digestPort ∧
      t.outputs = s.outputs ++ [.response (.error .alreadyFinalized)])

/-- R98 and R20: from a successful `FINALIZE` until the next reset the DIGEST port holds: any run of actions
none of which is a reset completes, and leaves the lanes, the phase and the port as they are. -/
def Obligations.DigestHoldsUntilReset : Prop :=
  ∀ (k : Nat) (s : State), s.engine.phase = .finalized → (∀ a ∈ s.pending.take k, a.resets = false) →
    ∃ t, run k s = .next t ∧ t.engine.phase = .finalized ∧ t.engine.lanes = s.engine.lanes ∧
      t.engine.buf = s.engine.buf ∧ t.engine.cnt = s.engine.cnt ∧
      t.engine.digestPort = some (digestWord s.engine.lanes)

/-! ### Usage errors -/

/-- R151: cause 1 is raised exactly by an `ABSORB` or a `FINALIZE` with `PHASE` = 1, on nothing else; the
refusal is R152's: the sticky bit of the cause, the response, and no other change. -/
def Obligations.AlreadyFinalizedExactlyWhen : Prop :=
  ∀ (i : Instr) (s : State),
    (exec i s = .next ⟨{ s.engine with errFinalized := true }, s.pending,
        s.outputs ++ [.response (.error .alreadyFinalized)]⟩) ↔
      s.engine.phase = .finalized ∧ (i = .finalize ∨ ∃ b, i = .absorb b)

/-- R153, R154: a word with `op` = 3 is refused with cause 2, whatever the phase and whatever `imm8`; it sets
`ERR_ILLEGAL` alone and changes nothing else (R152). -/
def Obligations.ReservedWordRefused : Prop :=
  ∀ (w : CommandWord) (s : State), w &&& 0x300 = 0x300 →
    exec (decode w) s = .next ⟨{ s.engine with errIllegal := true }, s.pending,
      s.outputs ++ [.response (.error .illegalCommand)]⟩

/-- R155: a run of refused commands of any length leaves the engine as one refusal of each cause among them
does, and each gets its own response. -/
def Obligations.RefusalsAreIdempotent : Prop :=
  ∀ (ws : List CommandWord) (s : State),
    (∀ w ∈ ws, refusalCause (decode w) s.engine.phase ≠ none) →
    ∃ t, run ws.length (s.present ws) = .next t ∧ t.pending = s.pending ∧
      t.engine =
        { s.engine with
          errFinalized := s.engine.errFinalized ||
            ws.any fun w => refusalCause (decode w) s.engine.phase == some .alreadyFinalized
          errIllegal := s.engine.errIllegal ||
            ws.any fun w => refusalCause (decode w) s.engine.phase == some .illegalCommand } ∧
      t.outputs = s.outputs ++
        ws.filterMap fun w =>
          (refusalCause (decode w) s.engine.phase).map fun c => PortOutput.response (.error c)

/-- R17: the error bits are sticky. Unless it is a reset, a step keeps a bit that is 1, and sets a bit
exactly when it refuses a command with that cause; a reset clears both. -/
def Obligations.ErrorBitsAreSticky : Prop :=
  ∀ (s t : State) (a : HostAction) (rest : List HostAction) (c : Cause),
    s.pending = a :: rest → step s = .next t →
    (a.resets = true → t.engine.sticky c = false) ∧
    (a.resets = false →
      (t.engine.sticky c = true ↔
        s.engine.sticky c = true ∨ t.outputs = s.outputs ++ [.response (.error c)]))

/-- R17: no rule of the datapath reads either bit: whatever their values, a command gives the same response
and the same lanes, buffer, count and phase. -/
def Obligations.DatapathIgnoresErrorBits : Prop :=
  ∀ (i : Instr) (s : State) (f g : Bool), ∃ t u, exec i s = .next t ∧
    exec i { s with engine := { s.engine with errFinalized := f, errIllegal := g } } = .next u ∧
    u.engine.lanes = t.engine.lanes ∧ u.engine.buf = t.engine.buf ∧ u.engine.cnt = t.engine.cnt ∧
    u.engine.phase = t.engine.phase ∧ u.pending = t.pending ∧ u.outputs = t.outputs

/-- 10_state.md R17, "so that the host can see, after the fact, that a command of the stream was refused":
over any run without a reset from cleared bits, the bits stay cleared exactly when the run was safe. -/
def Obligations.ErrorBitsReportUnsafeRun : Prop :=
  ∀ (k : Nat) (s t : State), (∀ a ∈ s.pending.take k, a.resets = false) →
    s.engine.errFinalized = false → s.engine.errIllegal = false → s.outputs = [] → run k s = .next t →
    (t.engine.errFinalized = false ∧ t.engine.errIllegal = false ↔ noCommandRefused t.outputs)

/-! ### STATUS and DIGEST -/

/-- R19: the fields of STATUS. -/
def Obligations.StatusLayout : Prop :=
  ∀ e : Engine,
    (e.status.getLsbD 0 = true ↔ e.phase = .finalized) ∧ e.status.getLsbD 1 = e.errFinalized ∧
    e.status.getLsbD 2 = e.errIllegal ∧ e.status.extractLsb' 3 5 = 0 ∧
    (e.status.extractLsb' 8 8).toNat = e.cnt.val

/-- 70_reset_and_hazards.md R175 (marked derived): the values of STATUS in a legal engine. -/
def Obligations.LegalStatusValues : Prop :=
  ∀ e : Engine, e.Legal →
    (e.phase = .absorbing → ∃ n ≤ 135, ∃ i ≤ 1, e.status.toNat = n * 256 + i * 4) ∧
    (e.phase = .finalized → ∃ f ≤ 1, ∃ i ≤ 1, e.status.toNat = 1 + f * 2 + i * 4)

/-- R20: the DIGEST port is valid exactly when `PHASE` = 1; then its 64-bit parts are lanes 0 to 3 and its
bytes are the bytes of the squeeze. -/
def Obligations.DigestPortView : Prop :=
  ∀ e : Engine,
    (e.phase = .absorbing → e.digestPort = none) ∧
    (e.phase = .finalized → ∃ v, e.digestPort = some v ∧
      (∀ i (h : i < 4), v.extractLsb' (64 * i) 64 = e.lanes[i]) ∧
      ∀ k (h : k < 32), v.extractLsb' (8 * k) 8 = (squeeze e.lanes)[k])

/-! ### Invariants -/

/-- The reset state is legal and holds the empty message (R24 with R175 and R79). -/
def Obligations.ResetStateLegal : Prop :=
  State.reset.engine.Legal ∧ State.reset.engine.HoldsMessage []

/-- 70_reset_and_hazards.md R175 (marked derived), clauses (b) and (c), kept by every step. -/
def Obligations.StepKeepsLegal : Prop :=
  ∀ s t : State, s.engine.Legal → step s = .next t → t.engine.Legal

/-- 40_reset_update_absorb.md R79 and 41_finalize_padding_squeeze.md R96, R97: the whole engine state is a
function of the message absorbed since the last reset, and every step keeps that, from every state in which
it holds, with the message that the host's action leaves. -/
def Obligations.StepKeepsHeldMessage : Prop :=
  ∀ (s t : State) (a : HostAction) (rest : List HostAction) (m : List Byte),
    s.pending = a :: rest → s.engine.HoldsMessage m → step s = .next t →
    t.engine.HoldsMessage (messageAfter a s.engine.phase m)

/-- 70_reset_and_hazards.md R175 (f) and R12: a step changes a lane only if it is a reset, an accepted
`ABSORB` with `CNT` = 135, or a successful `FINALIZE`. -/
def Obligations.LanesChangeOnlyByAbsorbStepOrReset : Prop :=
  ∀ s t : State, step s = .next t → t.engine.lanes ≠ s.engine.lanes →
    ∃ a rest, s.pending = a :: rest ∧
      (a.resets = true ∨
        ∃ w, a = .command w ∧ s.engine.phase = .absorbing ∧
          (decode w = .finalize ∨ ((∃ b, decode w = .absorb b) ∧ s.engine.cnt.val = 135)))

/-- 10_state.md R23: stale buffer bytes are not observable. Two engines that differ only in bytes at index
`CNT` and above show the host the same over every run, and stay so related. -/
def Obligations.StaleBytesUnobservable : Prop :=
  ∀ (k : Nat) (s s' t : State), s.engine.AgreesUpToStale s'.engine → s.pending = s'.pending →
    s.outputs = s'.outputs → run k s = .next t →
    ∃ t', run k s' = .next t' ∧ t.engine.AgreesUpToStale t'.engine ∧ t.pending = t'.pending ∧
      t.outputs = t'.outputs

/-! ### Byte order, blocks and squeeze -/

/-- R31 (with `MemRead` of 00_scope.md section 7.3): the word for lane `i` is the little-endian value of its
eight bytes, bit `k` of byte `j` standing at bit `8*j + k`. -/
def Obligations.WordReadIsLittleEndian : Prop :=
  ∀ (blk : Block) (i j k : Nat) (hi : i < 17) (hj : j < 8), k < 8 →
    (memRead8 blk ⟨i, hi⟩).getLsbD (8 * j + k) = (blk[8 * i + j]'(by omega)).getLsbD k

/-- R74: `XorBlock` XORs word `i` into lane `i` for lanes 0 to 16 and keeps lanes 17 to 24. -/
def Obligations.XorBlockTouchesRateOnly : Prop :=
  ∀ (S : Lanes) (blk : Block),
    (∀ i (h : i < 17), (xorBlock S blk)[i] = S[i] ^^^ memRead8 blk ⟨i, h⟩) ∧
    ∀ i (h : i < 25), 17 ≤ i → (xorBlock S blk)[i] = S[i]

/-- R95: the squeeze emits lanes 0 to 3 in ascending order, each little-endian; the other lanes contribute
nothing. -/
def Obligations.SqueezeEmitsFourLanes : Prop :=
  (∀ (S : Lanes) (i j : Nat) (hi : i < 4) (hj : j < 8),
    ((squeeze S)[8 * i + j]'(by omega)).toNat = (S[i]'(by omega)).toNat / 2 ^ (8 * j) % 256) ∧
  ∀ S T : Lanes, (∀ i (h : i < 4), S[i] = T[i]) → squeeze S = squeeze T

/-- 20_memory.md R30, 95_test_vectors.md T-LE-4, "squeeze inverts the packing of T-LE-1": the squeeze of a
block XORed into the zero state is the first 32 bytes of the block. -/
def Obligations.SqueezeInvertsPacking : Prop :=
  ∀ blk : Block, (squeeze (xorBlock zeroLanes blk)).toList = blk.toList.take 32

/-! ### The permutation -/

/-- R110: `rotl64` at shift 0 is the identity; else it is the rotate formula; bit `k` becomes bit
`(k + s) mod 64`. -/
def Obligations.RotateLeftMovesBits : Prop :=
  ∀ (v : Lane) (s : Fin 64),
    (s.val = 0 → rotl64 v s = v) ∧
    (1 ≤ s.val → rotl64 v s = ((v <<< s.val) ||| (v >>> (64 - s.val)))) ∧
    ∀ k < 64, (rotl64 v s).getLsbD ((k + s.val) % 64) = v.getLsbD k

/-- R113: theta, lane by lane, every parity taken from the input state. -/
def Obligations.ThetaPerLane : Prop :=
  ∀ (S : Lanes) (C D : Fin 5 → Lane),
    (∀ x, C x = laneAt S x 0 ^^^ laneAt S x 1 ^^^ laneAt S x 2 ^^^ laneAt S x 3 ^^^ laneAt S x 4) →
    (∀ x, D x = C (x + 4) ^^^ rotl64 (C (x + 1)) 1) →
    ∀ x y, laneAt (theta S) x y = laneAt S x y ^^^ D x

/-- R114: rho-pi moves the lane at (x, y), rotated by `RHO[x, y]`, to (y, (2x + 3y) mod 5), and that map is
a bijection of the 25 positions. -/
def Obligations.RhoPiMovesEveryLane : Prop :=
  (∀ (T : Lanes) (x y : Fin 5), laneAt (rhoPi T) y (2 * x + 3 * y) = rotl64 (laneAt T x y) (rho x y)) ∧
  Function.Bijective fun p : Fin 5 × Fin 5 => (p.2, 2 * p.1 + 3 * p.2)

/-- 42_permutation.md R116 (marked derived): the list by destination, `B[dst] = rotl64(T[src], rot)` for
`dst` = 0..24. -/
def Obligations.RhoPiByDestination : Prop :=
  ∀ (T : Lanes) (pairs : Vector (Fin 25 × Fin 64) 25),
    pairs = #v[(0, 0), (6, 44), (12, 43), (18, 21), (24, 14), (3, 28), (9, 20), (10, 3), (16, 45), (22, 61),
      (1, 1), (7, 6), (13, 25), (19, 8), (20, 18), (4, 27), (5, 36), (11, 10), (17, 15), (23, 56), (2, 62),
      (8, 55), (14, 39), (15, 41), (21, 2)] →
    ∀ dst (h : dst < 25), (rhoPi T)[dst] = rotl64 (T[pairs[dst].1.val]) pairs[dst].2

/-- R117: chi, lane by lane, from the snapshot of the row. -/
def Obligations.ChiPerLane : Prop :=
  ∀ (B : Lanes) (x y : Fin 5),
    laneAt (chi B) x y = laneAt B x y ^^^ (~~~(laneAt B (x + 1) y) &&& laneAt B (x + 2) y)

/-- R118: iota changes lane 0 only. -/
def Obligations.IotaTouchesLaneZeroOnly : Prop :=
  ∀ (X : Lanes) (r : Fin 24), (iota X r)[0] = X[0] ^^^ rc r ∧ ∀ i (h : i < 25), 0 < i → (iota X r)[i] = X[i]

/-- R121 with R120: `KeccakF` is 24 rounds in ascending order, each `Iota(Chi(RhoPi(Theta(S))), r)`. -/
def Obligations.KeccakFRunsRoundsInOrder : Prop :=
  ∀ f : Nat → Lanes, (∀ r : Fin 24, f (r.val + 1) = iota (chi (rhoPi (theta (f r.val)))) r) →
    keccakF (f 0) = f 24

/-- R123: the closed form gives the rotation table, and its walk visits the 24 positions other than (0, 0),
each once. -/
def Obligations.RotationTableHasClosedForm : Prop :=
  (∀ p ∈ rhoWalk 24 0 1 0, (rho p.1.1 p.1.2).val = p.2) ∧ (rho 0 0).val = 0 ∧
  ((rhoWalk 24 0 1 0).map Prod.fst).Nodup ∧ (0, 0) ∉ (rhoWalk 24 0 1 0).map Prod.fst

/-- R124: the generator gives the round-constant table. -/
def Obligations.RoundConstantsHaveGenerator : Prop := ∀ r : Fin 24, rcGenerated r = rc r

/-! ### Whole messages -/

/-- 40_reset_update_absorb.md R79 (marked derived): the `ABSORB` commands of a message, from the reset state
of the engine, each respond `OK` and leave the state that is R79's function of the message. -/
def Obligations.UpdateAbsorbsMessage : Prop :=
  ∀ (m : List Byte) (s : State), s.engine = State.reset.engine →
    ∃ t, run m.length (s.present (updateWords m)) = .next t ∧ t.engine.HoldsMessage m ∧
      t.engine.phase = .absorbing ∧ t.engine.errFinalized = false ∧ t.engine.errIllegal = false ∧
      t.pending = s.pending ∧ t.outputs = s.outputs ++ List.replicate m.length (.response .ok)

/-- 43_oneshot_hash.md R140, R141: `HASH m`, from every state of the engine, never fails, responds with
`Keccak256(m)`, and leaves the engine FINALIZED with both error bits 0. -/
def Obligations.HashReturnsKeccak256 : Prop :=
  ∀ (m : List Byte) (s : State),
    ∃ t, run (m.length + 2) (s.present (hashWords m)) = .next t ∧ t.pending = s.pending ∧
      t.outputs = s.outputs ++ List.replicate (m.length + 1) (.response .ok) ++
        [.response (.digest (keccak256 m))] ∧
      t.engine.phase = .finalized ∧ t.engine.status = 0x0001 ∧ t.engine.HoldsMessage m

/-- R142: streaming equivalence: chunks fed through successive updates into an engine in its reset state, with
any cut, empty chunks included, and then `FINALIZE`, give the same digest as the one-shot hash of the whole on
any engine, and that digest is `Keccak256` of the whole. -/
def Obligations.StreamingEquivalence : Prop :=
  ∀ (chunks : List (List Byte)) (s s' : State), s.engine = State.reset.engine →
    ∃ t u, run (chunks.flatten.length + 1)
        (s.present (chunks.flatMap updateWords ++ [encode .finalize])) = .next t ∧
      run (chunks.flatten.length + 2) (s'.present (hashWords chunks.flatten)) = .next u ∧
      t.outputs.getLast? = u.outputs.getLast? ∧
      t.outputs.getLast? = some (.response (.digest (keccak256 chunks.flatten)))

/-- 60_exceptions.md R155 and 20_memory.md R36: reserved words and STATUS reads anywhere in a message leave
it intact; `FINALIZE` then gives the digest of the bytes absorbed. -/
def Obligations.MessageSurvivesInterruptions : Prop :=
  ∀ (acts : List HostAction) (rest : List HostAction) (s : State), s.engine = State.reset.engine →
    (∀ a ∈ acts, keepsMessageOpen a = true) → s.pending = acts ++ .command (encode .finalize) :: rest →
    ∃ t, run (acts.length + 1) s = .next t ∧ t.pending = rest ∧
      t.outputs.getLast? = some (.response (.digest (keccak256 (acts.filterMap actionByte))))

/-- 41_finalize_padding_squeeze.md R94, R96 (marked derived): the digest takes `floor(n / 136) + 1` absorb
steps, one for each full block and one for the padded rest. -/
def Obligations.DigestIsFoldOverBlocks : Prop :=
  ∀ m : List Byte, ∃ blocks : List Block,
    blocks = ((List.range (m.length / 136)).map fun j => firstBlock (m.drop (136 * j))) ++
      [padBlock (m.drop (136 * (m.length / 136)))] ∧
    blocks.length = m.length / 136 + 1 ∧
    keccak256 m = squeeze (blocks.foldl (fun S blk => keccakF (xorBlock S blk)) zeroLanes)

/-- R146: the digests of the empty sequence and of the bytes "abc", the 64-digit values. -/
def Obligations.KnownAnswerDigests : Prop :=
  (keccak256 []).toList =
    [0xc5, 0xd2, 0x46, 0x01, 0x86, 0xf7, 0x23, 0x3c, 0x92, 0x7e, 0x7d, 0xb2, 0xdc, 0xc7, 0x03, 0xc0,
     0xe5, 0x00, 0xb6, 0x53, 0xca, 0x82, 0x27, 0x3b, 0x7b, 0xfa, 0xd8, 0x04, 0x5d, 0x85, 0xa4, 0x70] ∧
  (keccak256 [0x61, 0x62, 0x63]).toList =
    [0x4e, 0x03, 0x65, 0x7a, 0xea, 0x45, 0xa9, 0x4f, 0xc7, 0xd4, 0x7b, 0xa8, 0x26, 0xc8, 0xd6, 0x67,
     0xc0, 0xd1, 0xe6, 0xe3, 0x3a, 0x64, 0xa0, 0x36, 0xec, 0x44, 0xf5, 0x8f, 0xa1, 0x2d, 0x6c, 0x45]

/-- R100: the hexadecimal rendering: 64 characters, two lowercase digits a byte, high nibble first. -/
def Obligations.HexRendersTwoDigitsPerByte : Prop :=
  ∀ d : Digest, (hex d).length = 64 ∧
    ∀ k (h : k < 32),
      (hex d)[2 * k]? = ['0', '1', '2', '3', '4', '5', '6', '7', '8', '9', 'a', 'b', 'c', 'd', 'e', 'f'][d[k].toNat / 16]? ∧
      (hex d)[2 * k + 1]? = ['0', '1', '2', '3', '4', '5', '6', '7', '8', '9', 'a', 'b', 'c', 'd', 'e', 'f'][d[k].toNat % 16]?

/-- R60: the pseudo-instructions `UPDATE` and `HASH` expand to the commands they stand for. -/
def Obligations.PseudoInstructionsExpand : Prop :=
  ∀ m : List Byte,
    (AsmLine.update m).words.map decode = m.map .absorb ∧
    (AsmLine.hash m).words.map decode = .reset :: m.map .absorb ++ [.finalize] ∧
    (AsmLine.update []).words = []

/-! ### Several engines -/

/-- R25: a step of one instance leaves every other instance as it is, whatever the step answers. -/
def Obligations.OtherEnginesUntouched : Prop :=
  ∀ (n : Nat) (S : System n) (i : Fin n),
    (∀ s, S[i.val] = .next s → (systemStep S i)[i.val] = step s) ∧
    ∀ j (h : j < n), j ≠ i.val → (systemStep S i)[j] = S[j]

/-- R163: any interleaving of the steps of different instances gives each instance the same result as
running alone, for any number of instances. A result is the next state, or the refusal that the instance
comes to; another instance's refusal changes nothing. -/
def Obligations.InterleavingGivesSoloResults : Prop :=
  ∀ (n : Nat) (schedule : List (Fin n)) (states : Vector State n) (i : Fin n),
    (systemRun schedule (systemOf states))[i.val] = run (schedule.count i) states[i.val]
end

