-- ==== Sys2Proof/Laws/State.lean ====
section
/-! SUPPORT. One lemma per field per update of the state, true by `rfl`. -/

namespace Sys2Proof.Machine

@[simp] theorem State.emit_engine (s : State) (o : PortOutput) : (s.emit o).engine = s.engine := rfl
@[simp] theorem State.emit_pending (s : State) (o : PortOutput) : (s.emit o).pending = s.pending := rfl
@[simp] theorem State.emit_outputs (s : State) (o : PortOutput) : (s.emit o).outputs = s.outputs ++ [o] := rfl

@[simp] theorem State.present_engine (s : State) (ws : List CommandWord) : (s.present ws).engine = s.engine := rfl
@[simp] theorem State.present_pending (s : State) (ws : List CommandWord) :
    (s.present ws).pending = ws.map .command ++ s.pending := rfl
@[simp] theorem State.present_outputs (s : State) (ws : List CommandWord) : (s.present ws).outputs = s.outputs := rfl

@[simp] theorem Engine.absorbBlock_lanes (e : Engine) : e.absorbBlock.lanes = absorbLanes e.lanes e.buf := rfl
@[simp] theorem Engine.absorbBlock_buf (e : Engine) : e.absorbBlock.buf = e.buf := rfl
@[simp] theorem Engine.absorbBlock_cnt (e : Engine) : e.absorbBlock.cnt = 0 := rfl
@[simp] theorem Engine.absorbBlock_phase (e : Engine) : e.absorbBlock.phase = e.phase := rfl
@[simp] theorem Engine.absorbBlock_errFinalized (e : Engine) : e.absorbBlock.errFinalized = e.errFinalized := rfl
@[simp] theorem Engine.absorbBlock_errIllegal (e : Engine) : e.absorbBlock.errIllegal = e.errIllegal := rfl

@[simp] theorem Engine.finalize_lanes (e : Engine) :
    e.finalize.lanes = absorbLanes e.lanes (padInPlace e.buf e.cnt) := rfl
@[simp] theorem Engine.finalize_buf (e : Engine) : e.finalize.buf = padInPlace e.buf e.cnt := rfl
@[simp] theorem Engine.finalize_cnt (e : Engine) : e.finalize.cnt = 0 := rfl
@[simp] theorem Engine.finalize_phase (e : Engine) : e.finalize.phase = .finalized := rfl
@[simp] theorem Engine.finalize_errFinalized (e : Engine) : e.finalize.errFinalized = e.errFinalized := rfl
@[simp] theorem Engine.finalize_errIllegal (e : Engine) : e.finalize.errIllegal = e.errIllegal := rfl

@[simp] theorem Engine.setSticky_lanes (e : Engine) (c : Cause) : (e.setSticky c).lanes = e.lanes := by
  cases c <;> rfl
@[simp] theorem Engine.setSticky_buf (e : Engine) (c : Cause) : (e.setSticky c).buf = e.buf := by
  cases c <;> rfl
@[simp] theorem Engine.setSticky_cnt (e : Engine) (c : Cause) : (e.setSticky c).cnt = e.cnt := by
  cases c <;> rfl
@[simp] theorem Engine.setSticky_phase (e : Engine) (c : Cause) : (e.setSticky c).phase = e.phase := by
  cases c <;> rfl
@[simp] theorem Engine.sticky_setSticky (e : Engine) (c d : Cause) :
    (e.setSticky c).sticky d = (decide (d = c) || e.sticky d) := by
  cases c <;> cases d <;> rfl

@[simp] theorem Engine.reset_lanes : Engine.reset.lanes = zeroLanes := rfl
@[simp] theorem Engine.reset_buf : Engine.reset.buf = zeroBlock := rfl
@[simp] theorem Engine.reset_cnt : Engine.reset.cnt = 0 := rfl
@[simp] theorem Engine.reset_phase : Engine.reset.phase = .absorbing := rfl
@[simp] theorem Engine.reset_errFinalized : Engine.reset.errFinalized = false := rfl
@[simp] theorem Engine.reset_errIllegal : Engine.reset.errIllegal = false := rfl
@[simp] theorem Engine.reset_sticky (c : Cause) : Engine.reset.sticky c = false := by cases c <;> rfl

/-- The DIGEST port in each phase (R20). -/
theorem Engine.digestPort_absorbing (e : Engine) (h : e.phase = .absorbing) : e.digestPort = none := by
  simp [Engine.digestPort, Engine.digestValid, h]
theorem Engine.digestPort_finalized (e : Engine) (h : e.phase = .finalized) :
    e.digestPort = some (digestWord e.lanes) := by
  simp [Engine.digestPort, Engine.digestValid, h]

end Sys2Proof.Machine
end

