-- ==== Sys2Proof/Laws/Ops.lean ====
section
/-! SUPPORT. One lemma per shared operation, saying all that it does: the answer of a command, the byte
store, the accepted byte, the padding written in place, and the words of the buffer. -/

namespace Sys2Proof.Machine

/-- What a command that succeeds answers. -/
theorem commit_eq (e : Engine) (r : Response) (s : State) :
    commit e r s = .next ⟨e, s.pending, s.outputs ++ [.response r]⟩ := rfl

/-- What a refused command answers (R152). -/
theorem raiseUsageError_eq (c : Cause) (s : State) :
    raiseUsageError c s = .next ⟨s.engine.setSticky c, s.pending, s.outputs ++ [.response (.error c)]⟩ := rfl

@[simp] theorem messageByte_eq (b : Byte) : messageByte b = b := rfl

/-- The byte store reads back its byte and leaves every other byte (R35). -/
theorem getElem_memWrite1 (blk : Block) (n : Fin 136) (b : Byte) (k : Nat) (h : k < 136) :
    (memWrite1 blk n b)[k] = if k = n.val then b else blk[k] := by
  simp [memWrite1, Vector.getElem_set, eq_comm]

/-- An accepted byte that does not fill the buffer (R71 corner case b). -/
theorem acceptByte_of_lt (e : Engine) (b : Byte) (h : e.cnt.val + 1 < 136) :
    e.acceptByte b = { e with buf := memWrite1 e.buf e.cnt b, cnt := ⟨e.cnt.val + 1, h⟩ } := by
  simp [Engine.acceptByte, h]

/-- The accepted byte that fills the buffer (R71 corner case a). -/
theorem acceptByte_of_full (e : Engine) (b : Byte) (h : e.cnt.val = 135) :
    e.acceptByte b = Engine.absorbBlock { e with buf := memWrite1 e.buf e.cnt b } := by
  simp [Engine.acceptByte, h]

/-- Either an accepted byte leaves room, or it fills the buffer. -/
theorem acceptByte_cases (e : Engine) (b : Byte) :
    (∃ h : e.cnt.val + 1 < 136,
      e.acceptByte b = { e with buf := memWrite1 e.buf e.cnt b, cnt := ⟨e.cnt.val + 1, h⟩ }) ∨
    (e.cnt.val = 135 ∧ e.acceptByte b = Engine.absorbBlock { e with buf := memWrite1 e.buf e.cnt b }) := by
  by_cases h : e.cnt.val + 1 < 136
  · exact .inl ⟨h, acceptByte_of_lt e b h⟩
  · have h' : e.cnt.val = 135 := by omega
    exact .inr ⟨h', acceptByte_of_full e b h'⟩

@[simp] theorem acceptByte_phase (e : Engine) (b : Byte) : (e.acceptByte b).phase = e.phase := by
  unfold Engine.acceptByte; split <;> rfl
@[simp] theorem acceptByte_errFinalized (e : Engine) (b : Byte) :
    (e.acceptByte b).errFinalized = e.errFinalized := by
  unfold Engine.acceptByte; split <;> rfl
@[simp] theorem acceptByte_errIllegal (e : Engine) (b : Byte) : (e.acceptByte b).errIllegal = e.errIllegal := by
  unfold Engine.acceptByte; split <;> rfl
@[simp] theorem acceptByte_buf (e : Engine) (b : Byte) : (e.acceptByte b).buf = memWrite1 e.buf e.cnt b := by
  unfold Engine.acceptByte; split <;> rfl
@[simp] theorem acceptByte_sticky (e : Engine) (b : Byte) (c : Cause) : (e.acceptByte b).sticky c = e.sticky c := by
  cases c <;> simp [Engine.sticky]

theorem getElem_orByte (blk : Block) (n : Fin 136) (v : Byte) (k : Nat) (h : k < 136) :
    (orByte blk n v)[k] = if k = n.val then blk[k] ||| v else blk[k] := by
  unfold orByte
  rw [Vector.getElem_set]
  by_cases hk : n.val = k
  · subst hk; simp
  · simp [hk, Ne.symm hk]

theorem getElem_zeroFrom (blk : Block) (n : Fin 136) (k : Nat) (h : k < 136) :
    (zeroFrom blk n)[k] = if k < n.val then blk[k] else 0 := by
  unfold zeroFrom
  rw [Vector.getElem_ofFn]

/-- Every byte of the buffer that `FINALIZE` has padded after `n` pending bytes (R90, R91, R92). -/
theorem getElem_padInPlace (blk : Block) (n : Fin 136) (k : Nat) (h : k < 136) :
    (padInPlace blk n)[k] =
      (if k < n.val then blk[k] else if k = n.val then markerByte else 0)
        ||| (if k = 135 then terminatorByte else 0) := by
  unfold padInPlace
  rw [getElem_orByte, getElem_orByte, getElem_zeroFrom]
  rw [show (135 : Fin 136).val = 135 from rfl]
  split_ifs <;> first | omega | rfl | simp only [BitVec.ofNat_eq_ofNat, BitVec.or_zero]

/-- The words that a block puts into the rate lanes; the capacity lanes are kept (R74). -/
theorem getElem_xorBlock (S : Lanes) (blk : Block) (i : Nat) (h : i < 25) :
    (xorBlock S blk)[i] = if h' : i < 17 then S[i] ^^^ memRead8 blk ⟨i, h'⟩ else S[i] := by
  unfold xorBlock; simp

/-- The bytes of the squeeze (R95). -/
theorem getElem_squeeze (S : Lanes) (k : Nat) (h : k < 32) :
    (squeeze S)[k] = laneByte (S[k / 8]'(by omega)) ⟨k % 8, Nat.mod_lt _ (by decide)⟩ := by
  unfold squeeze; simp

end Sys2Proof.Machine
end

