-- ==== Sys2Proof/Laws/Exec.lean ====
section
/-! SUPPORT. What a command and a step can do, said once: every command answers a next state and shows one
response (spec R50), and a step takes one action of the host. -/

namespace Sys2Proof.Machine

/-- What `exec` makes of the engine, and the response, in every state (R174's table). -/
theorem exec_reset (s : State) :
    exec .reset s = .next ⟨.reset, s.pending, s.outputs ++ [.response .ok]⟩ := rfl

theorem exec_reserved (s : State) :
    exec .reserved s =
      .next ⟨s.engine.setSticky .illegalCommand, s.pending, s.outputs ++ [.response (.error .illegalCommand)]⟩ := rfl

theorem exec_absorb_absorbing (b : Byte) (s : State) (h : s.engine.phase = .absorbing) :
    exec (.absorb b) s = .next ⟨s.engine.acceptByte b, s.pending, s.outputs ++ [.response .ok]⟩ := by
  simp [exec, execAbsorb, h, commit_eq, messageByte]

theorem exec_absorb_finalized (b : Byte) (s : State) (h : s.engine.phase = .finalized) :
    exec (.absorb b) s =
      .next ⟨s.engine.setSticky .alreadyFinalized, s.pending,
        s.outputs ++ [.response (.error .alreadyFinalized)]⟩ := by
  simp [exec, execAbsorb, h, raiseUsageError_eq]

theorem exec_finalize_absorbing (s : State) (h : s.engine.phase = .absorbing) :
    exec .finalize s =
      .next ⟨s.engine.finalize, s.pending,
        s.outputs ++ [.response (.digest (squeeze s.engine.finalize.lanes))]⟩ := by
  simp [exec, execFinalize, h, commit_eq]

theorem exec_finalize_finalized (s : State) (h : s.engine.phase = .finalized) :
    exec .finalize s =
      .next ⟨s.engine.setSticky .alreadyFinalized, s.pending,
        s.outputs ++ [.response (.error .alreadyFinalized)]⟩ := by
  simp [exec, execFinalize, h, raiseUsageError_eq]

/-- Every command answers a next state, and its effect on the engine and its one response depend on the
engine alone: what the host presents later is kept, and what it has been shown is only added to. -/
theorem exec_depends_on_engine (i : Instr) (e : Engine) :
    ∃ e' r, ∀ later shown, exec i ⟨e, later, shown⟩ = .next ⟨e', later, shown ++ [.response r]⟩ := by
  cases i with
  | reset => exact ⟨.reset, .ok, fun l o => exec_reset ⟨e, l, o⟩⟩
  | reserved => exact ⟨e.setSticky .illegalCommand, .error .illegalCommand, fun l o => exec_reserved ⟨e, l, o⟩⟩
  | absorb b =>
    cases h : e.phase
    · exact ⟨e.acceptByte b, .ok, fun l o => exec_absorb_absorbing b ⟨e, l, o⟩ h⟩
    · exact ⟨e.setSticky .alreadyFinalized, .error .alreadyFinalized, fun l o => exec_absorb_finalized b ⟨e, l, o⟩ h⟩
  | finalize =>
    cases h : e.phase
    · exact ⟨e.finalize, .digest (squeeze e.finalize.lanes), fun l o => exec_finalize_absorbing ⟨e, l, o⟩ h⟩
    · exact ⟨e.setSticky .alreadyFinalized, .error .alreadyFinalized, fun l o => exec_finalize_finalized ⟨e, l, o⟩ h⟩

/-- A step with nothing presented holds the state (R162). -/
theorem step_idle (s : State) (h : s.pending = []) : step s = .next s := by
  simp [step, State.takeAction, h]

theorem step_command (s : State) (w : CommandWord) (rest : List HostAction)
    (h : s.pending = .command w :: rest) : step s = exec (decode w) { s with pending := rest } := by
  simp [step, State.takeAction, h, commandOf]

theorem step_readStatus (s : State) (rest : List HostAction) (h : s.pending = .readStatus :: rest) :
    step s = .next ⟨s.engine, rest, s.outputs ++ [.status s.engine.status]⟩ := by
  simp [step, State.takeAction, h, readStatus, State.emit]

theorem step_readDigest_finalized (s : State) (rest : List HostAction)
    (h : s.pending = .readDigest :: rest) (hp : s.engine.phase = .finalized) :
    step s = .next ⟨s.engine, rest, s.outputs ++ [.digest (digestWord s.engine.lanes)]⟩ := by
  simp [step, State.takeAction, h, readDigest, State.emit, Engine.digestPort, Engine.digestValid, hp]

theorem step_readDigest_absorbing (s : State) (rest : List HostAction)
    (h : s.pending = .readDigest :: rest) (hp : s.engine.phase = .absorbing) :
    step s = .refused .digestNotValid := by
  simp [step, State.takeAction, h, readDigest, Engine.digestPort, Engine.digestValid, hp]

theorem step_powerOnReset (s : State) (rest : List HostAction) (h : s.pending = .powerOnReset :: rest) :
    step s = .next ⟨.reset, rest, s.outputs⟩ := by
  simp [step, State.takeAction, h, powerOnReset]

end Sys2Proof.Machine
end

