-- ==== Sys2Proof/Laws/Hash.lean ====
section
/-! SUPPORT. Runs as sequences of steps, the bytes of the padded and of the full block, and the functions on
whole messages one byte at a time. Provers cite these instead of unfolding the irreducible operations. -/

namespace Sys2Proof.Machine

/-- A run of `k + 1` steps is a step and a run of `k` steps. -/
theorem run_succ (k : Nat) (s t : State) :
    run (k + 1) s = .next t ↔ ∃ u, step s = .next u ∧ run k u = .next t := by
  simp only [run]
  split <;> simp_all

/-- Runs compose. -/
theorem run_append (j k : Nat) (s u t : State) (h1 : run j s = .next u) (h2 : run k u = .next t) :
    run (j + k) s = .next t := by
  induction j generalizing s with
  | zero => cases h1; simpa using h2
  | succ j ih =>
    obtain ⟨v, hv, hj⟩ := (run_succ _ _ _).1 h1
    rw [show j + 1 + k = (j + k) + 1 by omega]
    exact (run_succ _ _ _).2 ⟨v, hv, ih v hj⟩

/-- Every byte of `PadBlock` (R91). -/
theorem getElem_padBlock (p : List Byte) (k : Nat) (hk : k < 136) :
    (padBlock p)[k] = if h : k < p.length then p[k]
      else if k < 135 then (if k = p.length then 0x01 else 0x00)
      else (if p.length = 135 then 0x81 else 0x80) := by
  unfold padBlock; rw [Vector.getElem_ofFn]

/-- The padding that `FINALIZE` writes in place is `PadBlock` of the pending bytes (R90, R91). -/
theorem padInPlace_eq_padBlock (blk : Block) (n : Fin 136) :
    padInPlace blk n = padBlock (blk.toList.take n.val) := by
  apply Vector.ext
  intro k hk
  have hl : (blk.toList.take n.val).length = n.val := by simp
  rw [getElem_padInPlace, getElem_padBlock]
  simp only [hl]
  by_cases c1 : k < n.val
  · rw [dif_pos c1, if_pos c1, if_neg (by omega), BitVec.ofNat_eq_ofNat, BitVec.or_zero, List.getElem_take,
      Vector.getElem_toList]
  · rw [dif_neg c1, if_neg c1]
    by_cases c2 : k = n.val <;> by_cases c3 : k = 135
    · rw [if_pos c2, if_pos c3, if_neg (by omega), if_pos (by omega)]; decide
    · rw [if_pos c2, if_neg c3, if_pos (by omega), if_pos c2]; decide
    · rw [if_neg c2, if_pos c3, if_neg (by omega), if_neg (by omega)]; decide
    · rw [if_neg c2, if_neg c3, if_pos (by omega), if_neg c2]; decide

/-- The bytes of a full block of a message. -/
theorem getElem_firstBlock (m : List Byte) (k : Nat) (hk : k < 136) : (firstBlock m)[k] = m.getD k 0 := by
  unfold firstBlock; rw [Vector.getElem_ofFn]

/-- Storing a byte at index `n` appends it to the `n` pending bytes. -/
theorem take_memWrite1 (blk : Block) (n : Fin 136) (b : Byte) :
    (memWrite1 blk n b).toList.take (n.val + 1) = blk.toList.take n.val ++ [b] := by
  apply List.ext_getElem
  · simp
  · intro k h1 h2
    have hk : k < n.val + 1 := by simp at h1; omega
    rw [List.getElem_take, Vector.getElem_toList, getElem_memWrite1, List.getElem_append]
    split
    · rename_i h; rw [dif_neg (by simp; omega)]; simp
    · rw [dif_pos (by simp; omega)]; simp

/-- The block that the 136th byte completes is the whole buffer. -/
theorem firstBlock_pending (blk : Block) (n : Fin 136) (b : Byte) (hn : n.val = 135) :
    firstBlock (blk.toList.take n.val ++ [b]) = memWrite1 blk n b := by
  rw [← take_memWrite1, hn]
  apply Vector.ext; intro k hk
  rw [getElem_firstBlock, List.getD_eq_getElem _ _ (by simp; omega)]
  simp

/-- Bytes after the full blocks do not matter to them. -/
theorem absorbBlocks_append (q : Nat) (S : Lanes) (m x : List Byte) (h : 136 * q ≤ m.length) :
    absorbBlocks q S (m ++ x) = absorbBlocks q S m := by
  induction q generalizing S m with
  | zero => rfl
  | succ q ih =>
    simp only [absorbBlocks]
    rw [List.drop_append_of_le_length (by omega), ih _ _ (by simp; omega)]
    congr 2
    apply Vector.ext
    intro i hi
    rw [getElem_firstBlock, getElem_firstBlock, List.getD_eq_getElem?_getD, List.getD_eq_getElem?_getD,
      List.getElem?_append_left (by omega)]

/-- The last of `q + 1` full blocks is absorbed last (R79). -/
theorem absorbBlocks_succ (q : Nat) (S : Lanes) (m : List Byte) :
    absorbBlocks (q + 1) S m = absorbLanes (absorbBlocks q S m) (firstBlock (m.drop (136 * q))) := by
  induction q generalizing S m with
  | zero => simp [absorbBlocks]
  | succ q ih =>
    rw [absorbBlocks, ih]
    simp only [absorbBlocks, List.drop_drop]
    congr 3
    omega

theorem length_messageTail (m : List Byte) : (messageTail m).length = m.length % 136 := by
  simp [messageTail, fullBlocks, Config.rate]; omega

/-- One more byte that leaves the last block short. -/
theorem message_append_room (m : List Byte) (b : Byte) (h : m.length % 136 + 1 < 136) :
    messageTail (m ++ [b]) = messageTail m ++ [b] ∧ messageLanes (m ++ [b]) = messageLanes m := by
  have e : (m.length + 1) / 136 = m.length / 136 := by omega
  constructor
  · simp only [messageTail, fullBlocks, Config.rate, List.length_append, List.length_singleton, e]
    rw [List.drop_append_of_le_length (by omega)]
  · simp only [messageLanes, fullBlocks, Config.rate, List.length_append, List.length_singleton, e]
    rw [absorbBlocks_append _ _ _ _ (by omega)]

/-- One more byte that fills the last block. -/
theorem message_append_full (m : List Byte) (b : Byte) (h : m.length % 136 = 135) :
    messageTail (m ++ [b]) = [] ∧
      messageLanes (m ++ [b]) = absorbLanes (messageLanes m) (firstBlock (messageTail m ++ [b])) := by
  have e : (m.length + 1) / 136 = m.length / 136 + 1 := by omega
  constructor
  · simp only [messageTail, fullBlocks, Config.rate, List.length_append, List.length_singleton, e]
    rw [List.drop_eq_nil_of_le (by simp; omega)]
  · simp only [messageLanes, messageTail, fullBlocks, Config.rate, List.length_append, List.length_singleton, e]
    rw [absorbBlocks_succ, absorbBlocks_append _ _ _ _ (by omega), List.drop_append_of_le_length (by omega)]

end Sys2Proof.Machine
end

