-- ==== Sys2Proof/Laws/PerInstr.lean ====
section
/-! SUPPORT. Statements made for every command, one lemma per constructor of `Instr`. -/

/-- The word of a command selects the command's own row of the opcode map (spec/30_encoding.md R52), and of
no other row, since the four rows have one mask and four patterns. -/
def Sys2Proof.Laws.OpcodeRow.Statement (i : Sys2Proof.Instr) : Prop :=
  Sys2Proof.encode i &&& i.row.mask = i.row.pattern ∧ i.row.mask = 0x300

theorem Sys2Proof.Laws.OpcodeRow.reset : Sys2Proof.Laws.OpcodeRow.Statement .reset := by
  constructor <;> decide

theorem Sys2Proof.Laws.OpcodeRow.absorb (imm8 : Sys2Proof.Byte) :
    Sys2Proof.Laws.OpcodeRow.Statement (.absorb imm8) := by
  refine ⟨?_, rfl⟩
  revert imm8
  decide +kernel

theorem Sys2Proof.Laws.OpcodeRow.finalize : Sys2Proof.Laws.OpcodeRow.Statement .finalize := by
  constructor <;> decide

theorem Sys2Proof.Laws.OpcodeRow.reserved : Sys2Proof.Laws.OpcodeRow.Statement .reserved := by
  constructor <;> decide
end

