-- ==== Sys2Proof/Laws/Permutation.lean ====
section
/-! SUPPORT. Reading the lane at a position out of a state built position by position (spec R11). -/

namespace Sys2Proof.Machine

@[simp] theorem laneAt_lanesOf (f : Fin 5 → Fin 5 → Lane) (x y : Fin 5) : laneAt (lanesOf f) x y = f x y := by
  unfold laneAt lanesOf
  simp only [Vector.getElem_ofFn]
  congr 1 <;> (apply Fin.ext; simp only []; omega)

/-- Lane `i` of such a state, by its index. -/
theorem getElem_lanesOf (f : Fin 5 → Fin 5 → Lane) (i : Nat) (h : i < 25) :
    (lanesOf f)[i] = f ⟨i % 5, Nat.mod_lt _ (by decide)⟩ ⟨i / 5, by omega⟩ := by
  simp [lanesOf]

/-- Two states are equal when their lanes agree at every position. -/
theorem lanes_ext {S T : Lanes} (h : ∀ x y, laneAt S x y = laneAt T x y) : S = T := by
  apply Vector.ext
  intro i hi
  have := h ⟨i % 5, Nat.mod_lt _ (by decide)⟩ ⟨i / 5, by omega⟩
  simpa [laneAt, Nat.mod_add_div] using this

end Sys2Proof.Machine
end

