-- ==== Sys2Proof/Laws/System.lean ====
section
/-! SUPPORT. Systems of several engines: what one more step of one engine is, and each instance of a system
after one step. -/

namespace Sys2Proof.Machine

@[simp] theorem advance_next (s : State) : advance (.next s) = step s := rfl
@[simp] theorem advance_refused (r : Refusal) : advance (.refused r) = .refused r := rfl
@[simp] theorem advance_fault (f : Fault) : advance (.fault f) = .fault f := rfl

/-- A longer run is one more step from what the shorter run came to, stops included. -/
theorem run_succ_eq_advance (k : Nat) (s : State) : run (k + 1) s = advance (run k s) := by
  induction k generalizing s with
  | zero => rw [run]; cases h : step s <;> simp [run, h]
  | succ k ih =>
    rw [run, run]
    cases step s with
    | next t => exact ih t
    | fault f => rfl
    | refused r => rfl

@[simp] theorem getElem_systemOf {n : Nat} (states : Vector State n) (j : Nat) (h : j < n) :
    (systemOf states)[j] = .next states[j] := by
  simp [systemOf]

/-- Every instance after a step of instance `i`. -/
theorem getElem_systemStep {n : Nat} (S : System n) (i : Fin n) (j : Nat) (h : j < n) :
    (systemStep S i)[j] = if j = i.val then advance S[i.val] else S[j] := by
  simp [systemStep, Vector.getElem_set, eq_comm]

/-- A schedule runs its first part, then the rest. -/
theorem systemRun_append {n : Nat} (a b : List (Fin n)) (S : System n) :
    systemRun (a ++ b) S = systemRun b (systemRun a S) := by
  simp [systemRun]

end Sys2Proof.Machine
end

