-- ==== Sys2Proof/Tests/Slice0.lean ====
section
/-! SUPPORT. The model's own tests. Expected values come from spec/95_test_vectors.md and the worked examples
of the rules; each docstring names its source. The witnesses at the end show that the hypotheses of each
statement are met together. -/

namespace Sys2Proof.Tests

open Sys2Proof Sys2Proof.Machine

/-! ### Well-formedness: each check refuses an ill-formed term -/

/-- R55, R59: the reserved opcode is no instruction an assembler emits. -/
theorem test_reserved_ill_formed : Instr.reserved.wellFormed = false := by decide
theorem test_absorb_well_formed : (Instr.absorb 0xFF).wellFormed = true := by decide
/-- R51, R59: 0x400 is no 10-bit word, 0x3FF is one. -/
theorem test_wide_word_refused : wordFits 0x400 = false ∧ wordFits 0x3FF = true := by decide
theorem test_wide_word_rejected_by_name : decodeRaw 0x400 = .error .wordTooWide := by rfl

/-! ### Decoding: words written out bit by bit from R51 and R52 -/

/-- T-ENC-1, T-ENC-4. -/
theorem test_decode_reset : decode 0b0000000000 = .reset ∧ decode 0b0010100111 = .reset := by decide
/-- T-ENC-2, T-ENC-7. -/
theorem test_decode_absorb : decode 0b0101100001 = .absorb 0x61 ∧ decode 0b0110000000 = .absorb 0x80 := by decide
/-- T-ENC-3, T-ENC-5. -/
theorem test_decode_finalize : decode 0b1000000000 = .finalize ∧ decode 0b1011111111 = .finalize := by decide
/-- T-ENC-6. -/
theorem test_decode_reserved : decode 0b1100000000 = .reserved ∧ decode 0b1111111111 = .reserved := by decide
theorem test_decode_table_word : decodeTableWord 16 0x3A5 = some .reserved ∧ decodeTableWord 16 0x161 = some (.absorb 0x61) := by
  decide

/-! ### Sizes (R3, T-SRC-4) -/

theorem test_sizes : Config.rateLanes * 8 = Config.rate ∧ (Config.rateLanes + Config.capacityLanes) * 64 = 1600 ∧
    2 * rcRows.size = Config.numRounds ∧ (squeeze zeroLanes).size = Config.digestLength := by decide

/-! ### Word operations, byte order, padding -/

/-- T-ROT-1, T-ROT-4, T-ROT-9. -/
theorem test_rotl64 : rotl64 1 0 = 1 ∧ rotl64 0x8000000000000001 1 = 3 ∧
    rotl64 0x0123456789ABCDEF 62 = 0xC048D159E26AF37B := by decide
/-- T-LE-1: the block whose byte `k` is `k`. -/
theorem test_memRead8 : memRead8 (Vector.ofFn fun k => BitVec.ofNat 8 k.val) 0 = 0x0706050403020100 ∧
    memRead8 (Vector.ofFn fun k => BitVec.ofNat 8 k.val) 16 = 0x8786858483828180 := by decide +kernel
/-- T-PAD-6: a stale 0xFF at index 135 does not stay under the terminator. -/
theorem test_padding_clears_stale_bytes :
    (padInPlace (Vector.replicate 136 0xFF) 1).toList = [0xFF, 0x01] ++ List.replicate 133 0x00 ++ [0x80] := by
  decide +kernel
/-- T-PAD-4: 135 pending bytes 0x61. -/
theorem test_padding_135 :
    (padInPlace (Vector.replicate 136 0x61) 135).toList = List.replicate 135 0x61 ++ [0x81] := by decide +kernel
/-- T-SRC-5. -/
theorem test_squeeze_first_bytes :
    ((squeeze (zeroLanes.set 0 0x3C23F7860146D2C5)).toList.take 8) = [0xc5, 0xd2, 0x46, 0x01, 0x86, 0xf7, 0x23, 0x3c] := by
  decide +kernel
/-- R100: a byte 0x05 renders as "05", a byte 0xC5 as "c5". -/
theorem test_hexByte : hexByte 0x05 = ['0', '5'] ∧ hexByte 0xC5 = ['c', '5'] := by decide +kernel

/-! ### The permutation -/

/-- The pattern state P of 95_test_vectors.md section 2.6. -/
def patternP : Lanes := Vector.ofFn fun i => BitVec.ofNat 64 ((i.val + 1) * 0x0123456789ABCDEF)

/-- T-THETA-2b, the wrap-around of the rotate: lanes of row 2. -/
theorem test_theta : (theta (zeroLanes.set 12 0x8000000000000000)).toList.extract 10 15 =
    [0, 1, 0x8000000000000000, 0x8000000000000000, 0] := by decide +kernel
/-- T-RHOPI-3, row 1. -/
theorem test_rhoPi : (rhoPi patternP).toList.extract 5 10 =
    [0xE26AF37BC048D159, 0x60B60B60B560B60B, 0x641FDB97530ECA28, 0x159BE26AF37C048D, 0x23456789ABCDF00F] := by
  decide +kernel
/-- T-CHI-2, row 1: no lane is overwritten before it is read. -/
theorem test_chi : (chi (((((zeroLanes.set 5 0x00000000FFFFFFFF).set 6 0x0F0F0F0F0F0F0F0F).set 7
      0x3333333333333333).set 8 0x5555555555555555).set 9 0xFFFF0000FFFF0000)).toList.extract 5 10 =
    [0x30303030CFCFCFCF, 0x4B4B4B4B4B4B4B4B, 0x9999333399993333, 0x555555555555AAAA, 0xF0F00F0FFFFF0000] := by
  decide +kernel
/-- T-IOTA-2. -/
theorem test_iota : (iota patternP 5)[0] = 0x0123456709ABCDEE ∧ (iota patternP 5)[1] = 0x02468ACF13579BDE := by
  decide +kernel
/-- T-ROUND-1, rows 0 and 4. -/
theorem test_round : (round patternP 0).toList.take 5 =
      [0x53DCFFEEEA479E55, 0xBC6917E90580BF0F, 0xA45BC89C368596F4, 0x08451BC762462E85, 0x6B3AB204EFFF42A4] ∧
    (round patternP 0).toList.drop 20 =
      [0x854F647BEF5CBD20, 0xBD1C39B9767CD7CD, 0x62965DE1E591059C, 0x1F93361FF79943B6, 0x29C527E79E4D7683] := by
  decide +kernel
/-- T-PERM-1, lanes 0 and 24. -/
theorem test_keccakF : (keccakF zeroLanes)[0] = 0xF1258F7940E1DDE7 ∧ (keccakF zeroLanes)[24] = 0xEAF1FF7B5CECA249 := by
  decide +kernel

/-! ### The commands, one step each -/

/-- An engine in the ABSORBING phase with `n` pending bytes 0x61 in a buffer full of them. -/
def absorbingEngine (n : Fin 136) : Engine := { Engine.reset with buf := Vector.replicate 136 0x61, cnt := n }

/-- A finalized engine whose lanes are all 1. -/
def finalizedEngine : Engine := { Engine.reset with lanes := Vector.replicate 25 1, phase := .finalized }

/-- A state of that engine, to which the host presents these actions. -/
def stateOf (e : Engine) (later : List HostAction) : State := ⟨e, later, []⟩

/-- A field of the state after a step, if there is one. -/
def after {α : Type} (f : State → α) (o : Host.Outcome State Fault Refusal) : Option α :=
  match o with
  | .next t => some (f t)
  | .fault _ => none
  | .refused _ => none

/-- Was the step refused as the read of a DIGEST port that is not valid? -/
def isDigestNotValid : Host.Outcome State Fault Refusal → Bool
  | .refused r => r == .digestNotValid
  | .next _ => false
  | .fault _ => false

/-- R70: `RESET` clears the flags from any state, and responds `OK`. -/
theorem test_reset : after (fun t => (t.engine, t.outputs))
    (exec .reset (stateOf { finalizedEngine with errFinalized := true, errIllegal := true } [])) =
    some (Engine.reset, [.response .ok]) := by decide +kernel
/-- T-ABS-1. -/
theorem test_absorb_first : after (fun t => (t.engine.status, t.engine.buf[0], t.outputs))
    (step (State.reset.withFetchWord 16 0x161)) = some (0x0100, 0x61, [.response .ok]) := by decide +kernel
/-- T-ABS-4: the 136th byte 0x61 fills the buffer; lanes 0 and 24 afterwards. -/
theorem test_absorb_fills : after (fun t => (t.engine.status, t.engine.lanes[0], t.engine.lanes[24]))
    (exec (.absorb 0x61) (stateOf (absorbingEngine 135) [])) =
    some (0x0000, 0xD498EC4C50D2E1F1, 0x2BAB2CE9EDD14D81) := by decide +kernel
/-- T-DIG-1, T-PROG-1: `FINALIZE` from reset, the four digest lanes of T-PERM-3. -/
theorem test_finalize_empty : after (fun t => (t.engine.status, t.engine.lanes.toList.take 4))
    (step (State.reset.withFetchWord 16 0x200)) =
    some (0x0001, [0x3C23F7860146D2C5, 0xC003C7DCB27D7E92, 0x3B2782CA53B600E5, 0x70A4855D04D8FA7B]) := by
  decide +kernel
/-- T-ERR-1: refused after finalize, `STATUS` = 0x0003. -/
theorem test_absorb_refused : after (fun t => (t.engine.status, t.engine.lanes, t.outputs))
    (exec (.absorb 0x62) (stateOf finalizedEngine [])) =
    some (0x0003, finalizedEngine.lanes, [.response (.error .alreadyFinalized)]) := by decide +kernel
/-- T-ERR-2. -/
theorem test_finalize_refused : after (fun t => (t.engine.status, t.outputs))
    (exec .finalize (stateOf finalizedEngine [])) = some (0x0003, [.response (.error .alreadyFinalized)]) := by
  decide +kernel
/-- T-ERR-4: the reserved word 0x3A5 with one byte pending. -/
theorem test_reserved_refused : after (fun t => (t.engine.status, t.engine.buf[0], t.outputs))
    (step ((stateOf (absorbingEngine 1) []).withFetchWord 16 0x3A5)) =
    some (0x0104, 0x61, [.response (.error .illegalCommand)]) := by decide +kernel
/-- T-ERR-6: a reserved word after finalize sets `ERR_ILLEGAL` alone (R154). -/
theorem test_reserved_after_finalize : after (fun t => t.engine.status)
    (exec .reserved (stateOf finalizedEngine [])) = some 0x0005 := by decide +kernel
/-- T-ERR-9: a read of DIGEST in the ABSORBING phase is refused. -/
theorem test_digest_not_valid : after (fun _ => ()) (step (stateOf .reset [.readDigest])) = none := by decide +kernel
/-- R20: DIGEST shows lanes 0 to 3, lane 0 lowest. -/
theorem test_digest_port : digestWord (zeroLanes.set 1 0xFF) = 0xFF <<< 64 := by decide +kernel
/-- R57, T-ENC-12. -/
theorem test_response_words : Response.ok.rsp = 0x0 ∧ (Response.error .alreadyFinalized).rsp = 0x6 ∧
    (Response.error .illegalCommand).rsp = 0xA := by decide

/-! ### Assembler text -/

/-- T-ENC-9 and R59: `UPDATE 'a', 0x62, 99 ; x` and then `.word 0x3A5`. -/
theorem test_assemble : assemble
    (['U', 'P', 'D', 'A', 'T', 'E', ' ', quoteChar, 'a', quoteChar, ',', ' ', '0', 'x', '6', '2', ',', ' ', '9', '9', ' ', ';', ' ', 'x', newlineChar]
      ++ ['.', 'w', 'o', 'r', 'd', ' ', '0', 'x', '3', 'A', '5']) =
    some [0x161, 0x162, 0x163, 0x3A5] := by decide +kernel
/-- T-ENC-11: `HASH ""`. -/
theorem test_assemble_hash : assemble ['H', 'A', 'S', 'H', ' ', stringChar, stringChar] = some [0x000, 0x200] := by
  decide +kernel

/-- R59, log 9: the literal of the apostrophe itself, with a comment after it and inside a list. -/
theorem test_assemble_apostrophe : assemble
    (['A', 'B', 'S', 'O', 'R', 'B', ' ', quoteChar, quoteChar, quoteChar, ' ', ';', ' ', 'x', newlineChar]
      ++ ['U', 'P', 'D', 'A', 'T', 'E', ' ', quoteChar, quoteChar, quoteChar, ',', ' ', '0', 'x', '6', '1']) =
    some [0x127, 0x127, 0x161] := by decide +kernel

/-! ### Witnesses: the hypotheses of each statement hold together somewhere -/

theorem witness_DecodeFollowsOpcodeMap : (0x0FF : CommandWord) &&& 0x300 = 0x000 ∧ (0x1FF : CommandWord) &&& 0x300 = 0x100 ∧
    (0x200 : CommandWord) &&& 0x300 = 0x200 ∧ (0x300 : CommandWord) &&& 0x300 = 0x300 := by decide
theorem witness_ImmediateIgnoredUnlessAbsorb :
    (0x3A5 : CommandWord) &&& 0x300 = 0x300 &&& 0x300 ∧ (0x3A5 : CommandWord) &&& 0x300 ≠ 0x100 := by decide
theorem witness_StepExecutesPresentedWord :
    (stateOf .reset [.command 0x161]).pending = .command 0x161 :: [] ∧ (stateOf .reset []).pending = [] ∧
    decodeTableWord 16 0x3FF = some .reserved := by decide
theorem witness_PortReadsChangeNothing :
    (stateOf .reset [.readStatus]).pending = .readStatus :: [] ∧
    ((stateOf finalizedEngine [.readDigest]).pending = .readDigest :: [] ∧ finalizedEngine.phase = .finalized) ∧
    ((stateOf .reset [.readDigest]).pending = .readDigest :: [] ∧ Engine.reset.phase = .absorbing) := by decide
theorem witness_StepStopsOnlyOnInvalidDigestRead : step (stateOf .reset [.readDigest]) = .refused .digestNotValid := rfl
theorem witness_PowerOnResetActsAsReset :
    (stateOf finalizedEngine [.powerOnReset, .readStatus]).pending = .powerOnReset :: [.readStatus] := by decide
theorem witness_ResetErasesPriorUse : decode 0x0A7 = .reset ∧
    ∃ t, run (0 + 1) { stateOf finalizedEngine [] with pending := .command 0x0A7 :: [] } = .next t := ⟨by decide, _, rfl⟩
/-- The counts 0, 134 and 135: below and at the last place of the buffer. -/
theorem witness_AbsorbAppendsByte :
    finalizedEngine.phase = .finalized ∧ (absorbingEngine 0).phase = .absorbing ∧ ((absorbingEngine 134).phase = .absorbing ∧ (absorbingEngine 134).cnt.val < 135) ∧
    ((absorbingEngine 135).phase = .absorbing ∧ (absorbingEngine 135).cnt.val = 135) := ⟨rfl, rfl, ⟨rfl, by decide⟩, rfl, rfl⟩
theorem witness_AbsorbFrame :
    (∃ t, exec (.absorb 0x61) (stateOf (absorbingEngine 134) []) = .next t) ∧ (absorbingEngine 134).phase = .absorbing ∧
    ¬ ((absorbingEngine 134).phase = .absorbing ∧ 135 = (absorbingEngine 134).cnt.val) ∧
    ¬ ((absorbingEngine 134).phase = .absorbing ∧ (absorbingEngine 134).cnt.val = 135) ∧
    (∃ t, exec (.absorb 0x61) (stateOf finalizedEngine []) = .next t) ∧ finalizedEngine.phase = .finalized :=
  ⟨⟨_, rfl⟩, rfl, by decide, by decide, ⟨_, rfl⟩, rfl⟩
theorem witness_FinalizePadsAbsorbsSqueezes : Engine.reset.phase = .absorbing ∧ (absorbingEngine 135).phase = .absorbing ∧
    finalizedEngine.phase = .finalized := ⟨rfl, rfl, rfl⟩
/-- The lengths 0, 134 and 135, and the indices at the ends of each clause. -/
theorem witness_PadBlockByCases : ([] : List Byte).length ≤ 135 ∧ 0 < 135 ∧
    ((List.replicate 134 (0x61 : Byte)).length ≤ 135 ∧ 133 < (List.replicate 134 (0x61 : Byte)).length ∧
      (List.replicate 134 (0x61 : Byte)).length < 135) ∧
    ((List.replicate 133 (0x61 : Byte)).length < 134 ∧ 134 < 135) ∧
    (List.replicate 135 (0x61 : Byte)).length = 135 := by simp
theorem witness_MarkerAndTerminatorShareByte135 :
    (absorbingEngine 135).phase = .absorbing ∧ (absorbingEngine 135).cnt.val = 135 := ⟨rfl, rfl⟩
theorem witness_FinalizeFrame :
    ((∃ t, exec .finalize (stateOf (absorbingEngine 135) []) = .next t) ∧ (absorbingEngine 135).phase = .absorbing ∧
      134 < (absorbingEngine 135).cnt.val) ∧
    (∃ t, exec .finalize (stateOf finalizedEngine []) = .next t) ∧ finalizedEngine.phase = .finalized :=
  ⟨⟨⟨_, rfl⟩, rfl, by decide⟩, ⟨_, rfl⟩, rfl⟩
theorem witness_DigestResponseEqualsPort : Engine.reset.phase = .absorbing ∧ finalizedEngine.phase = .finalized := ⟨rfl, rfl⟩
theorem witness_DigestHoldsUntilReset : finalizedEngine.phase = .finalized ∧
    ∀ a ∈ (stateOf finalizedEngine [.command 0x161, .readDigest, .powerOnReset]).pending.take 2, a.resets = false := by
  decide
theorem witness_ReservedWordRefused : (0x3FF : CommandWord) &&& 0x300 = 0x300 := by decide
theorem witness_RefusalsAreIdempotent :
    (∀ w ∈ [0x161, 0x200, (0x3A5 : CommandWord)], refusalCause (decode w) finalizedEngine.phase ≠ none) ∧
    ∀ w ∈ [(0x300 : CommandWord)], refusalCause (decode w) Engine.reset.phase ≠ none := by decide
theorem witness_ErrorBitsAreSticky :
    ((stateOf finalizedEngine [.command 0x161]).pending = .command 0x161 :: [] ∧
      (∃ t, step (stateOf finalizedEngine [.command 0x161]) = .next t) ∧ (HostAction.command 0x161).resets = false) ∧
    ((stateOf finalizedEngine [.command 0x000]).pending = .command 0x000 :: [] ∧
      (∃ t, step (stateOf finalizedEngine [.command 0x000]) = .next t) ∧ (HostAction.command 0x000).resets = true) :=
  ⟨⟨rfl, ⟨_, rfl⟩, by decide⟩, rfl, ⟨_, rfl⟩, by decide⟩
theorem witness_ErrorBitsReportUnsafeRun :
    (∀ a ∈ (stateOf .reset [.command 0x300]).pending.take 1, a.resets = false) ∧
    (stateOf .reset [.command 0x300]).engine.errFinalized = false ∧
    (stateOf .reset [.command 0x300]).engine.errIllegal = false ∧ (stateOf .reset [.command 0x300]).outputs = [] ∧
    ∃ t, run 1 (stateOf .reset [.command 0x300]) = .next t := ⟨by decide, rfl, rfl, rfl, _, rfl⟩
theorem witness_LegalStatusValues :
    ((absorbingEngine 135).Legal ∧ (absorbingEngine 135).phase = .absorbing) ∧
    (finalizedEngine.Legal ∧ finalizedEngine.phase = .finalized) :=
  ⟨⟨⟨fun h => (nomatch h), fun _ => rfl⟩, rfl⟩, ⟨fun _ => rfl, fun _ => rfl⟩, rfl⟩
theorem witness_DigestPortView : Engine.reset.phase = .absorbing ∧ finalizedEngine.phase = .finalized := ⟨rfl, rfl⟩
theorem witness_StepKeepsLegal : finalizedEngine.Legal ∧ ∃ t, step (stateOf finalizedEngine [.command 0x161]) = .next t :=
  ⟨⟨fun _ => rfl, fun _ => rfl⟩, _, rfl⟩
theorem witness_StepKeepsHeldMessage : (stateOf .reset [.command 0x161]).pending = .command 0x161 :: [] ∧
    (stateOf .reset [.command 0x161]).engine.HoldsMessage [] ∧ ∃ t, step (stateOf .reset [.command 0x161]) = .next t :=
  ⟨rfl, ⟨fun _ => rfl, fun _ => rfl, fun _ => rfl, fun h => (nomatch h), fun h => (nomatch h), fun h => (nomatch h)⟩, _, rfl⟩
theorem witness_LanesChangeOnlyByAbsorbStepOrReset : ∃ t, step (stateOf finalizedEngine [.command 0x000]) = .next t ∧
    t.engine.lanes ≠ (stateOf finalizedEngine [.command 0x000]).engine.lanes := ⟨_, rfl, by decide +kernel⟩
/-- Two engines that differ in stale bytes, at index 1 and above. -/
theorem witness_StaleBytesUnobservable :
    (stateOf (absorbingEngine 1) []).engine.AgreesUpToStale
      (stateOf { absorbingEngine 1 with buf := zeroBlock.set 0 0x61 } []).engine ∧
    ∃ t, run 1 (stateOf (absorbingEngine 1) []) = .next t :=
  ⟨⟨rfl, rfl, rfl, rfl, rfl, by decide +kernel⟩, _, rfl⟩
theorem witness_WordReadIsLittleEndian : 16 < 17 ∧ 7 < 8 := by decide
theorem witness_XorBlockTouchesRateOnly : 16 < 17 ∧ (17 < 25 ∧ 17 ≤ 17) ∧ (24 < 25 ∧ 17 ≤ 24) := by decide
/-- Two states that differ in lane 4 and agree on lanes 0 to 3. -/
theorem witness_SqueezeEmitsFourLanes : (3 < 4 ∧ 7 < 8) ∧
    (∀ i (h : i < 4), (zeroLanes.set 4 1)[i] = zeroLanes[i]) ∧ zeroLanes.set 4 1 ≠ zeroLanes := by decide +kernel
theorem witness_RotateLeftMovesBits : ((0 : Fin 64).val = 0) ∧ 1 ≤ (1 : Fin 64).val ∧ 1 ≤ (63 : Fin 64).val ∧ 63 < 64 := by
  decide
theorem witness_ThetaPerLane : ∃ C D : Fin 5 → Lane,
    (∀ x, C x = laneAt patternP x 0 ^^^ laneAt patternP x 1 ^^^ laneAt patternP x 2 ^^^ laneAt patternP x 3 ^^^ laneAt patternP x 4) ∧
    ∀ x, D x = C (x + 4) ^^^ rotl64 (C (x + 1)) 1 := ⟨_, _, fun _ => rfl, fun _ => rfl⟩
theorem witness_RhoPiByDestination : ∃ pairs : Vector (Fin 25 × Fin 64) 25,
    pairs = #v[(0, 0), (6, 44), (12, 43), (18, 21), (24, 14), (3, 28), (9, 20), (10, 3), (16, 45), (22, 61),
      (1, 1), (7, 6), (13, 25), (19, 8), (20, 18), (4, 27), (5, 36), (11, 10), (17, 15), (23, 56), (2, 62),
      (8, 55), (14, 39), (15, 41), (21, 2)] := ⟨_, rfl⟩
/-- The states between the rounds of the permutation of `S`. -/
def roundStates (S : Lanes) : Nat → Lanes
  | 0 => S
  | n + 1 => if h : n < 24 then round (roundStates S n) ⟨n, h⟩ else roundStates S n
theorem witness_KeccakFRunsRoundsInOrder : ∀ r : Fin 24, roundStates patternP (r.val + 1) =
    iota (chi (rhoPi (theta (roundStates patternP r.val)))) r := by
  intro r
  rw [roundStates, dif_pos r.isLt]
  rfl
theorem witness_UpdateAbsorbsMessage : (stateOf .reset [.readStatus]).engine = State.reset.engine := rfl
theorem witness_StreamingEquivalence : (stateOf .reset []).engine = State.reset.engine := rfl
theorem witness_MessageSurvivesInterruptions :
    (stateOf .reset [.command 0x161, .command 0x3A5, .readStatus, .command 0x200]).engine = State.reset.engine ∧
    (∀ a ∈ [HostAction.command 0x161, .command 0x3A5, .readStatus], keepsMessageOpen a = true) ∧
    (stateOf .reset [.command 0x161, .command 0x3A5, .readStatus, .command 0x200]).pending =
      [HostAction.command 0x161, .command 0x3A5, .readStatus] ++ .command (encode .finalize) :: [] := ⟨rfl, by decide, rfl⟩
theorem witness_HexRendersTwoDigitsPerByte : 0 < 32 ∧ 31 < 32 := by decide
theorem witness_OtherEnginesUntouched : (systemReset 2)[0] = .next State.reset ∧ 1 < 2 ∧ 1 ≠ 0 := by
  simp [systemReset]
/-- Instance 0 is refused a read of DIGEST, and instance 1 goes on to its own result. -/
theorem test_refusal_stops_one_engine :
    let S := systemRun [0, 1, 0, 1] (systemOf #v[stateOf .reset [.readDigest], stateOf .reset [.command 0x161, .command 0x162]])
    isDigestNotValid S[0] = true ∧ after (fun t => (t.engine.status, t.pending)) S[1] = some (0x0200, []) := by
  decide +kernel
/-- Both sides of the statement, for an `ABSORB` and for a `FINALIZE`. -/
theorem witness_AlreadyFinalizedExactlyWhen : finalizedEngine.phase = .finalized ∧
    (Instr.absorb 0x62 = .finalize ∨ ∃ b, Instr.absorb 0x62 = .absorb b) ∧
    (Instr.finalize = .finalize ∨ ∃ b, Instr.finalize = .absorb b) := ⟨rfl, .inr ⟨_, rfl⟩, .inl rfl⟩

end Sys2Proof.Tests
end

section
/-! The instances of a system after a step of one of them (R25). -/

namespace Sys2Proof.Machine

/-- The instance that steps from a state comes to that step's outcome, a refusal included. -/
theorem getElem_systemStep_self {n : Nat} {S : System n} {i : Fin n} {s : State}
    (hs : S[i.val] = .next s) : (systemStep S i)[i.val] = step s := by
  rw [getElem_systemStep, if_pos rfl, hs, advance_next]

/-- The frame of `systemStep`. -/
theorem getElem_systemStep_of_ne {n : Nat} (S : System n) (i : Fin n) {j : Nat} (h : j < n)
    (hne : j ≠ i.val) : (systemStep S i)[j] = S[j] := by
  rw [getElem_systemStep, if_neg hne]

/-- Settles O58: the stepping instance by the rule for `advance`, every other by the frame of `systemStep`. -/
theorem otherEnginesUntouched : Obligations.OtherEnginesUntouched := by
  intro n S i
  constructor
  · intro s hs
    exact getElem_systemStep_self hs
  · intro j h hne
    exact getElem_systemStep_of_ne S i h hne

end Sys2Proof.Machine
end

section
/-! The bits of the word that a block contributes to a lane (R31). -/

namespace Sys2Proof.Machine

/-- A byte shifted by whole bytes shows its bits in the one byte it comes to and zeros in every other. -/
theorem getLsbD_setWidth_shiftLeft_byte (b : Byte) {n j k : Nat} (hn : 8 ∣ n) (hj : j < 8) (hk : k < 8) :
    (b.setWidth 64 <<< n).getLsbD (8 * j + k) = (decide (n = 8 * j) && b.getLsbD k) := by
  obtain hlt | rfl | hgt := Nat.lt_trichotomy n (8 * j)
  · have habove : 8 ≤ 8 * j + k - n := by omega
    simp [BitVec.getLsbD_of_ge b _ habove, hlt.ne]
  · have hbit : 8 * j + k < 64 := by omega
    simp [hbit]
  · have hbelow : 8 * j + k < n := by omega
    simp [hbelow, hgt.ne']

/-- The byte that is not shifted stands in the least significant byte. -/
theorem getLsbD_setWidth_byte (b : Byte) {j k : Nat} (hj : j < 8) (hk : k < 8) :
    (b.setWidth 64).getLsbD (8 * j + k) = (decide (0 = 8 * j) && b.getLsbD k) := by
  simpa only [BitVec.shiftLeft_zero] using getLsbD_setWidth_shiftLeft_byte b (Nat.dvd_zero 8) hj hk

/-- R31: byte `j` of `MemRead(8*i, 8)` is buffer byte `8*i + j`, since only that one of the eight shifted bytes
has bits there. -/
theorem getLsbD_memRead8 (blk : Block) (i : Fin 17) (j : Fin 8) {k : Nat} (hk : k < 8) :
    (memRead8 blk i).getLsbD (8 * j.val + k) = (blockByte blk i j).getLsbD k := by
  simp (disch := omega) only [memRead8, BitVec.getLsbD_or, getLsbD_setWidth_byte,
    getLsbD_setWidth_shiftLeft_byte]
  fin_cases j <;> simp

/-- Settles O37: a buffer byte is read off the word by the bits of `MemRead`. -/
theorem wordReadIsLittleEndian : Obligations.WordReadIsLittleEndian := by
  intro blk i j k hi hj hk
  exact getLsbD_memRead8 blk ⟨i, hi⟩ ⟨j, hj⟩ hk

end Sys2Proof.Machine
end

section
/-! Decoding by the opcode field, which the mask of the opcode map shows (R51, R52, R54). -/

namespace Sys2Proof

@[simp] theorem opField_commandWord (op : BitVec 2) (imm8 : Byte) : opField (commandWord op imm8) = op :=
  BitVec.extractLsb'_append_eq_left

theorem commandWord_opField_immField (w : CommandWord) : commandWord (opField w) (immField w) = w :=
  BitVec.extractLsb'_append_extractLsb'

/-- The mask of the opcode map keeps the opcode field and clears the immediate (R52). -/
theorem and_opcodeMask (w : CommandWord) : w &&& 0x300 = commandWord (opField w) 0 :=
  calc w &&& 0x300
    _ = (opField w ++ immField w) &&& (BitVec.allOnes 2 ++ 0#8) :=
      congrArg (· &&& 0x300) (commandWord_opField_immField w).symm
    _ = (opField w &&& BitVec.allOnes 2) ++ (immField w &&& 0#8) := BitVec.and_append
    _ = commandWord (opField w) 0 := by rw [BitVec.and_allOnes, BitVec.and_zero]; rfl

/-- A word shows the match of a row under the mask exactly when it has the row's opcode. -/
theorem and_opcodeMask_eq_commandWord_iff (w : CommandWord) (op : BitVec 2) :
    w &&& 0x300 = commandWord op 0 ↔ opField w = op := by
  rw [and_opcodeMask]
  constructor
  · intro h
    simpa using congrArg opField h
  · rintro rfl
    rfl

theorem and_opcodeMask_eq_and_opcodeMask_iff (w w' : CommandWord) :
    w &&& 0x300 = w' &&& 0x300 ↔ opField w = opField w' := by
  rw [and_opcodeMask w', and_opcodeMask_eq_commandWord_iff]

theorem decode_of_opField_zero {w : CommandWord} (h : opField w = 0) : decode w = .reset := by
  simp [decode, h]

theorem decode_of_opField_one {w : CommandWord} (h : opField w = 1) : decode w = .absorb (immField w) := by
  simp [decode, h]

theorem decode_of_opField_two {w : CommandWord} (h : opField w = 2) : decode w = .finalize := by
  simp [decode, h]

theorem decode_of_opField_three {w : CommandWord} (h : opField w = 3) : decode w = .reserved := by
  simp [decode, h]

/-- Only `ABSORB` reads the immediate: two words of another opcode are one command (R54, R55). -/
theorem decode_eq_of_opField_eq {w w' : CommandWord} (hop : opField w = opField w') (habsorb : opField w ≠ 1) :
    decode w = decode w' := by
  simp only [decode, ← hop, if_neg habsorb]

/-- Settles O1: the match of a row is the row's opcode, and the decoder goes by the opcode. -/
theorem decodeFollowsOpcodeMap : Obligations.DecodeFollowsOpcodeMap := by
  intro w
  refine ⟨fun h => ?_, fun h => ?_, fun h => ?_, fun h => ?_⟩
  · exact decode_of_opField_zero ((and_opcodeMask_eq_commandWord_iff w 0).mp h)
  · exact decode_of_opField_one ((and_opcodeMask_eq_commandWord_iff w 1).mp h)
  · exact decode_of_opField_two ((and_opcodeMask_eq_commandWord_iff w 2).mp h)
  · exact decode_of_opField_three ((and_opcodeMask_eq_commandWord_iff w 3).mp h)

/-- Settles O4: two words with one opcode other than that of `ABSORB` decode alike, so their effects are one. -/
theorem immediateIgnoredUnlessAbsorb : Obligations.ImmediateIgnoredUnlessAbsorb := by
  refine ⟨fun w w' s hmatch habsorb => ?_, rfl, rfl⟩
  have hop : opField w = opField w' := (and_opcodeMask_eq_and_opcodeMask_iff w w').mp hmatch
  have hne : opField w ≠ 1 := fun h => habsorb ((and_opcodeMask_eq_commandWord_iff w 1).mpr h)
  have hdecode : decode w = decode w' := decode_eq_of_opField_eq hop hne
  exact ⟨hdecode, by rw [hdecode]⟩

end Sys2Proof
end

section
/-! `RESET` and `ABSORB` on the engine, and the XOR of a block into the rate lanes (R24, R70, R71, R74). -/

namespace Sys2Proof.Machine

@[simp] theorem getElem_zeroLanes (i : Nat) (h : i < 25) : zeroLanes[i] = 0 := Vector.getElem_replicate h

@[simp] theorem getElem_zeroBlock (k : Nat) (h : k < 136) : zeroBlock[k] = 0 := Vector.getElem_replicate h

/-- Settles O12: `RESET` answers the engine of R24, whose lanes and buffer are the zero vectors. -/
theorem resetZeroesTheEngine : Obligations.ResetZeroesTheEngine := fun s =>
  ⟨_, exec_reset s, getElem_zeroLanes, getElem_zeroBlock, rfl, rfl, rfl, rfl, rfl, rfl⟩

/-- An accepted byte that leaves room is counted, and no lane changes (R71 corner case b). -/
theorem acceptByte_counts_of_room (e : Engine) (b : Byte) (h : e.cnt.val < 135) :
    (e.acceptByte b).cnt.val = e.cnt.val + 1 ∧ (e.acceptByte b).lanes = e.lanes := by
  rw [acceptByte_of_lt e b (Nat.succ_lt_succ h)]
  exact ⟨rfl, rfl⟩

/-- The accepted byte that fills the buffer drains the count, and the full block goes into the lanes
(R71 corner case a, R75). -/
theorem acceptByte_absorbs_of_full (e : Engine) (b : Byte) (h : e.cnt.val = 135) :
    (e.acceptByte b).cnt.val = 0 ∧
      (e.acceptByte b).lanes = keccakF (xorBlock e.lanes (e.buf.set 135 b)) := by
  have hcnt : e.cnt = 135 := Fin.ext h
  rw [acceptByte_of_full e b h, hcnt]
  exact ⟨rfl, rfl⟩

/-- Settles O15: by the phase, and in the ABSORBING phase by whether the byte fills the buffer. -/
theorem absorbAppendsByte : Obligations.AbsorbAppendsByte := by
  intro b s
  constructor
  · intro hfinalized
    exact exec_absorb_finalized b s hfinalized
  · intro habsorbing
    refine ⟨_, exec_absorb_absorbing b s habsorbing, rfl, rfl, ?_⟩
    exact ⟨acceptByte_buf s.engine b, acceptByte_counts_of_room s.engine b,
      acceptByte_absorbs_of_full s.engine b, (acceptByte_phase s.engine b).trans habsorbing,
      acceptByte_errFinalized s.engine b, acceptByte_errIllegal s.engine b⟩

/-- Settles O38: by whether the lane is one of the 17 rate lanes. -/
theorem xorBlockTouchesRateOnly : Obligations.XorBlockTouchesRateOnly := by
  intro S blk
  constructor
  · intro i hrate
    rw [getElem_xorBlock, dif_pos hrate]
  · intro i h hcapacity
    rw [getElem_xorBlock, dif_neg (Nat.not_lt.mpr hcapacity)]

end Sys2Proof.Machine
end

section
/-! `PadBlock` by its cases, and what `FINALIZE` leaves in the buffer and the lanes (R90 to R92). -/

namespace Sys2Proof.Machine

/-- `PadBlock` keeps the pending bytes (R91). -/
theorem getElem_padBlock_of_lt {p : List Byte} {k : Nat} (hp : k < p.length) (hk : k < 136) :
    (padBlock p)[k] = p[k] := by
  rw [getElem_padBlock, dif_pos hp]

/-- A byte after the marker and before byte 135 is zero (R91). -/
theorem getElem_padBlock_of_gt {p : List Byte} {k : Nat} (hp : p.length < k) (hk : k < 135) :
    (padBlock p)[k] = 0x00 := by
  rw [getElem_padBlock, dif_neg hp.not_gt, if_pos hk, if_neg hp.ne']

/-- The marker stands right after the pending bytes when byte 135 is not the one after them (R91). -/
theorem getElem_padBlock_length {p : List Byte} (hp : p.length < 135) :
    (padBlock p)[p.length] = 0x01 := by
  rw [getElem_padBlock, dif_neg (Nat.lt_irrefl _), if_pos hp, if_pos rfl]

/-- Byte 135 is the terminator, with the marker in it when 135 bytes are pending (R91, R92). -/
theorem getElem_padBlock_last {p : List Byte} (hp : p.length ≤ 135) :
    (padBlock p)[135] = if p.length = 135 then 0x81 else 0x80 := by
  rw [getElem_padBlock, dif_neg hp.not_gt, if_neg (Nat.lt_irrefl _)]

/-- Settles O18: each clause is the rule for one of the four ranges of the index. -/
theorem padBlockByCases : Obligations.PadBlockByCases := by
  intro p hp
  refine ⟨fun k h h' => getElem_padBlock_of_lt h h', fun h => getElem_padBlock_length h,
    fun k h hk => getElem_padBlock_of_gt hk h, fun h => ?_, fun h => ?_⟩
  · rw [getElem_padBlock_last hp, if_neg h.ne]
  · rw [getElem_padBlock_last hp, if_pos h]

/-- Whatever block the padding in place comes to, `FINALIZE` leaves it in the buffer and has absorbed it once
(R90). -/
theorem finalize_of_padInPlace_eq (e : Engine) {blk : Block} (hpad : padInPlace e.buf e.cnt = blk) :
    e.finalize.buf = blk ∧ e.finalize.lanes = keccakF (xorBlock e.lanes blk) := by
  subst hpad
  exact ⟨rfl, rfl⟩

/-- Settles O17: by the phase; the padding in place comes to `PadBlock` of the pending bytes. -/
theorem finalizePadsAbsorbsSqueezes : Obligations.FinalizePadsAbsorbsSqueezes := by
  intro s
  constructor
  · intro hfinalized
    exact exec_finalize_finalized s hfinalized
  · intro habsorbing
    have hpad := padInPlace_eq_padBlock s.engine.buf s.engine.cnt
    obtain ⟨hbuf, hlanes⟩ := finalize_of_padInPlace_eq s.engine hpad
    exact ⟨_, exec_finalize_absorbing s habsorbing, hbuf, hlanes, rfl, rfl, rfl, rfl, rfl, rfl⟩

/-- With 135 bytes pending the padding in place writes one byte, the marker and the terminator in one (R92). -/
theorem padInPlace_full (blk : Block) : padInPlace blk 135 = blk.set 135 (markerByte ||| terminatorByte) := by
  apply Vector.ext
  intro k hk
  have hcnt : (135 : Fin 136).val = 135 := rfl
  rw [getElem_padInPlace, Vector.getElem_set, hcnt]
  obtain hlt | rfl : k < 135 ∨ k = 135 := by omega
  · simp [hlt, hlt.ne, hlt.ne']
  · simp

/-- Settles O19: the padding in place comes to the buffer with byte 135 stored, which is 0x01 | 0x80. -/
theorem markerAndTerminatorShareByte135 : Obligations.MarkerAndTerminatorShareByte135 := by
  intro s habsorbing hfull
  have hcnt : s.engine.cnt = 135 := Fin.ext hfull
  have hpad : padInPlace s.engine.buf s.engine.cnt = s.engine.buf.set 135 0x81 := by
    rw [hcnt]
    exact padInPlace_full s.engine.buf
  obtain ⟨hbuf, hlanes⟩ := finalize_of_padInPlace_eq s.engine hpad
  exact ⟨_, exec_finalize_absorbing s habsorbing, hbuf, hlanes, rfl, rfl⟩

end Sys2Proof.Machine
end

section
/-! The bytes of the squeeze, read off the four lanes that it emits (R95). -/

namespace Sys2Proof.Machine

/-- The value of a byte of a lane (R95). -/
theorem toNat_laneByte (v : Lane) (j : Fin 8) :
    (laneByte v j).toNat = v.toNat / 2 ^ (8 * j.val) % 256 := by
  rw [laneByte, BitVec.toNat_setWidth, BitVec.toNat_ushiftRight, Nat.shiftRight_eq_div_pow]

/-- Byte `8*i + j` of the squeeze is byte `j` of lane `i` (R95). -/
theorem getElem_squeeze_mul_add (S : Lanes) {i j : Nat} (hi : i < 4) (hj : j < 8) :
    (squeeze S)[8 * i + j] = laneByte S[i] ⟨j, hj⟩ := by
  have hlane : (8 * i + j) / 8 = i := by omega
  have hbyte : (8 * i + j) % 8 = j := by omega
  simp only [getElem_squeeze, hlane, hbyte]

/-- Settles O39: a byte of the squeeze is a byte of one of lanes 0 to 3, so only they matter. -/
theorem squeezeEmitsFourLanes : Obligations.SqueezeEmitsFourLanes := by
  constructor
  · intro S i j hi hj
    rw [getElem_squeeze_mul_add S hi hj, toNat_laneByte]
  · intro S T h
    apply Vector.ext
    intro k hk
    have hlane : k / 8 < 4 := by omega
    rw [getElem_squeeze, getElem_squeeze, h _ hlane]

end Sys2Proof.Machine
end

section
/-! The hexadecimal rendering of a digest, two characters a byte (R100). -/

namespace Sys2Proof.Machine

/-- A digit is the character at its value in R100's list of digits. -/
theorem getElem?_digits_toNat (v : BitVec 4) :
    ['0', '1', '2', '3', '4', '5', '6', '7', '8', '9', 'a', 'b', 'c', 'd', 'e', 'f'][v.toNat]? =
      some (hexDigit v) := by
  revert v
  decide

@[simp] theorem length_hexByte (b : Byte) : (hexByte b).length = 2 := rfl

theorem toNat_highNibble (b : Byte) : (b.extractLsb' 4 4).toNat = b.toNat / 16 := by
  have := b.isLt
  rw [BitVec.extractLsb'_toNat, Nat.shiftRight_eq_div_pow]
  omega

theorem toNat_lowNibble (b : Byte) : (b.extractLsb' 0 4).toNat = b.toNat % 16 := by
  rw [BitVec.extractLsb'_toNat, Nat.shiftRight_zero]

theorem length_flatMap_hexByte (bs : List Byte) : (bs.flatMap hexByte).length = 2 * bs.length := by
  simp [List.length_flatMap, Nat.mul_comm]

/-- The two characters of byte `k` stand at `2*k` and `2*k + 1`. -/
theorem getElem?_flatMap_hexByte {bs : List Byte} {k : Nat} (hk : k < bs.length) :
    (bs.flatMap hexByte)[2 * k]? = some (hexDigit (bs[k].extractLsb' 4 4)) ∧
      (bs.flatMap hexByte)[2 * k + 1]? = some (hexDigit (bs[k].extractLsb' 0 4)) := by
  induction bs generalizing k with
  | nil => exact absurd hk (Nat.not_lt_zero k)
  | cons b bs ih =>
    cases k with
    | zero => exact ⟨rfl, rfl⟩
    | succ k => exact ih (Nat.lt_of_succ_lt_succ hk)

/-- Settles O56: the characters of byte `k` are the digits of its two nibbles. -/
theorem hexRendersTwoDigitsPerByte : Obligations.HexRendersTwoDigitsPerByte := by
  intro d
  constructor
  · rw [hex, length_flatMap_hexByte, Vector.length_toList]
  · intro k hk
    have hlen : k < d.toList.length := by rwa [Vector.length_toList]
    obtain ⟨hhigh, hlow⟩ := getElem?_flatMap_hexByte hlen
    rw [Vector.getElem_toList] at hhigh hlow
    constructor
    · rw [← toNat_highNibble, getElem?_digits_toNat]
      exact hhigh
    · rw [← toNat_lowNibble, getElem?_digits_toNat]
      exact hlow

end Sys2Proof.Machine
end

section
/-! The four steps of a round, lane by lane (R110 to R118). -/

namespace Sys2Proof.Machine

/-- On its shifts 0 to 63 `rotl64` is the library's rotate, whose formula needs no case for 0 (R110). -/
theorem rotl64_eq_rotateLeft (v : Lane) (s : Fin 64) : rotl64 v s = v.rotateLeft s.val := by
  rw [rotl64, BitVec.rotateLeft_def, Nat.mod_eq_of_lt s.isLt]
  split
  next hzero => rw [hzero, BitVec.shiftLeft_zero, Nat.sub_zero, BitVec.ushiftRight_eq_zero le_rfl, BitVec.or_zero]
  next => rfl

/-- Bit `k` moves up by the shift, and past bit 63 it comes in again at bit 0 (R110). -/
theorem getLsbD_rotl64_add_mod (v : Lane) (s : Fin 64) {k : Nat} (hk : k < 64) :
    (rotl64 v s).getLsbD ((k + s.val) % 64) = v.getLsbD k := by
  have hs : s.val % 64 = s.val := Nat.mod_eq_of_lt s.isLt
  rw [rotl64_eq_rotateLeft, BitVec.getLsbD_rotateLeft, hs]
  obtain hstays | hwraps := Nat.lt_or_ge (k + s.val) 64
  · have hdest : (k + s.val) % 64 = k + s.val := Nat.mod_eq_of_lt hstays
    simp [hdest, hstays]
  · have hdest : (k + s.val) % 64 = k + s.val - 64 := by omega
    have hlow : k + s.val - 64 < s.val := by omega
    have hsource : 64 - s.val + (k + s.val - 64) = k := by omega
    simp [hdest, hlow, hsource]

/-- Settles O41: the two cases are those of `rotl64`, and the bits are those of the rotate. -/
theorem rotateLeftMovesBits : Obligations.RotateLeftMovesBits := by
  intro v s
  refine ⟨fun hzero => ?_, fun hpos => ?_, fun k hk => getLsbD_rotl64_add_mod v s hk⟩
  · rw [rotl64, if_pos hzero]
  · rw [rotl64, if_neg (Nat.one_le_iff_ne_zero.mp hpos)]

theorem getElem_thetaC (S : Lanes) (x : Fin 5) :
    (thetaC S)[x] = laneAt S x 0 ^^^ laneAt S x 1 ^^^ laneAt S x 2 ^^^ laneAt S x 3 ^^^ laneAt S x 4 :=
  Vector.getElem_ofFn x.isLt

theorem getElem_thetaD (S : Lanes) (x : Fin 5) :
    (thetaD S)[x] = (thetaC S)[x + 4] ^^^ rotl64 (thetaC S)[x + 1] 1 :=
  Vector.getElem_ofFn x.isLt

@[simp] theorem laneAt_theta (S : Lanes) (x y : Fin 5) : laneAt (theta S) x y = laneAt S x y ^^^ (thetaD S)[x] :=
  laneAt_lanesOf _ x y

/-- Settles O42: parities that meet the two equations of R113 are those that `theta` computes. -/
theorem thetaPerLane : Obligations.ThetaPerLane := by
  intro S C D hC hD x y
  have hparity (x : Fin 5) : (thetaC S)[x] = C x := (getElem_thetaC S x).trans (hC x).symm
  rw [laneAt_theta, getElem_thetaD, hparity, hparity, hD]

/-- The lane that `rhoPi` brings to (u, v), by its source (R114 read by destination). -/
@[simp] theorem laneAt_rhoPi (T : Lanes) (u v : Fin 5) :
    laneAt (rhoPi T) u v = rotl64 (laneAt T (u + 3 * v) u) (rho (u + 3 * v) u) :=
  laneAt_lanesOf _ u v

/-- The destination of (x, y), read back, is column `x`. -/
theorem rhoPi_source_of_destination (x y : Fin 5) : y + 3 * (2 * x + 3 * y) = x := by
  decide +revert

/-- The source of (u, v) is moved to row `v`. -/
theorem rhoPi_destination_of_source (u v : Fin 5) : 2 * (u + 3 * v) + 3 * u = v := by
  decide +revert

/-- Settles O43: reading by source and reading by destination are inverse maps of the positions. -/
theorem rhoPiMovesEveryLane : Obligations.RhoPiMovesEveryLane := by
  constructor
  · intro T x y
    rw [laneAt_rhoPi, rhoPi_source_of_destination]
  · rw [Function.bijective_iff_has_inverse]
    refine ⟨fun p => (p.1 + 3 * p.2, p.1), fun ⟨x, y⟩ => ?_, fun ⟨u, v⟩ => ?_⟩
    · exact Prod.ext (rhoPi_source_of_destination x y) rfl
    · exact Prod.ext rfl (rhoPi_destination_of_source u v)

@[simp] theorem laneAt_chi (B : Lanes) (x y : Fin 5) :
    laneAt (chi B) x y = laneAt B x y ^^^ (~~~(laneAt B (x + 1) y) &&& laneAt B (x + 2) y) :=
  laneAt_lanesOf _ x y

/-- Settles O45: the lane that `chi` builds at each position. -/
theorem chiPerLane : Obligations.ChiPerLane := laneAt_chi

@[simp] theorem getElem_iota_zero (X : Lanes) (r : Fin 24) : (iota X r)[0] = X[0] ^^^ rc r :=
  Vector.getElem_set_self _

theorem getElem_iota_of_pos (X : Lanes) (r : Fin 24) {i : Nat} (h : i < 25) (hpos : 0 < i) :
    (iota X r)[i] = X[i] :=
  Vector.getElem_set_ne _ _ hpos.ne

/-- Settles O46: the store to lane 0 reads back, and every other lane is kept. -/
theorem iotaTouchesLaneZeroOnly : Obligations.IotaTouchesLaneZeroOnly := fun X r =>
  ⟨getElem_iota_zero X r, fun _ h hpos => getElem_iota_of_pos X r h hpos⟩

end Sys2Proof.Machine
end

section
/-! The rounds of the permutation in ascending order (R120, R121). -/

namespace Sys2Proof.Machine

/-- A fold over the round indices runs along any sequence of states that the round links (R121). -/
theorem foldl_finRange_of_succ {σ : Type} {n : Nat} (g : σ → Fin n → σ) (f : Nat → σ)
    (hf : ∀ r : Fin n, f (r.val + 1) = g (f r.val) r) : (List.finRange n).foldl g (f 0) = f n := by
  induction n with
  | zero => rfl
  | succ n ih =>
    have hinit : (List.finRange n).foldl (fun S r => g S r.castSucc) (f 0) = f n :=
      ih _ fun r => hf r.castSucc
    rw [List.finRange_succ_last, List.foldl_append, List.foldl_map, hinit]
    exact (hf (Fin.last n)).symm

/-- Settles O47: `keccakF` is the fold of the round over its 24 indices. -/
theorem keccakFRunsRoundsInOrder : Obligations.KeccakFRunsRoundsInOrder := by
  intro f hround
  rw [keccakF]
  exact foldl_finRange_of_succ round f hround

end Sys2Proof.Machine
end

section
/-! What the host has been shown does not act on a step or a run: both read the engine and what is presented,
and only add to the record (R43, R50). -/

namespace Sys2Proof.Machine

/-- After a first step that answers a next state, the run goes on from that state. -/
theorem run_succ_of_step {s u : State} (h : step s = .next u) (k : Nat) : run (k + 1) s = run k u := by
  rw [run, h]

/-- By the engine and what is presented alone, a step is refused under every record, or does one and the same
thing to every record (R20, R43). -/
theorem step_ignores_record (e : Engine) (later : List HostAction) :
    (∀ o, step ⟨e, later, o⟩ = .refused .digestNotValid) ∨
      ∃ e' later' shown, ∀ o, step ⟨e, later, o⟩ = .next ⟨e', later', o ++ shown⟩ := by
  cases later with
  | nil => exact .inr ⟨e, [], [], fun o => by rw [step_idle _ rfl, List.append_nil]⟩
  | cons a rest =>
    cases a with
    | command w =>
      obtain ⟨e', r, hexec⟩ := exec_depends_on_engine (decode w) e
      exact .inr ⟨e', rest, [.response r], fun o => (step_command _ w rest rfl).trans (hexec rest o)⟩
    | readStatus => exact .inr ⟨e, rest, [.status e.status], fun o => step_readStatus _ rest rfl⟩
    | readDigest =>
      cases hphase : e.phase with
      | absorbing => exact .inl fun o => step_readDigest_absorbing _ rest rfl hphase
      | finalized =>
        exact .inr ⟨e, rest, [.digest (digestWord e.lanes)],
          fun o => step_readDigest_finalized _ rest rfl hphase⟩
    | powerOnReset =>
      exact .inr ⟨.reset, rest, [], fun o => by rw [step_powerOnReset _ rest rfl, List.append_nil]⟩

/-- The same of a run of any length. -/
theorem run_ignores_record (k : Nat) (e : Engine) (later : List HostAction) :
    (∀ o, run k ⟨e, later, o⟩ = .refused .digestNotValid) ∨
      ∃ e' later' shown, ∀ o, run k ⟨e, later, o⟩ = .next ⟨e', later', o ++ shown⟩ := by
  induction k generalizing e later with
  | zero => exact .inr ⟨e, later, [], fun o => by rw [run, List.append_nil]⟩
  | succ k ih =>
    obtain hrefused | ⟨e₁, later₁, first, hstep⟩ := step_ignores_record e later
    · exact .inl fun o => by rw [run, hrefused]
    · obtain hrefused | ⟨e₂, later₂, others, hrun⟩ := ih e₁ later₁
      · exact .inl fun o => (run_succ_of_step (hstep o) k).trans (hrefused _)
      · exact .inr ⟨e₂, later₂, first ++ others, fun o => by
          rw [run_succ_of_step (hstep o), hrun, List.append_assoc]⟩

/-- The step of a presented `RESET` word, in every state (R70). -/
theorem step_resetWord {w : CommandWord} (hw : decode w = .reset) (s : State) (later : List HostAction) :
    step { s with pending := .command w :: later } =
      .next ⟨.reset, later, s.outputs ++ [.response .ok]⟩ := by
  rw [step_command _ w later rfl, hw, exec_reset]

/-- A run that begins with a `RESET` word is the run of what follows it on the reset engine (R70, R143). -/
theorem run_resetWord {w : CommandWord} (hw : decode w = .reset) (s : State) (later : List HostAction) (k : Nat) :
    run (k + 1) { s with pending := .command w :: later } =
      run k ⟨.reset, later, s.outputs ++ [.response .ok]⟩ :=
  run_succ_of_step (step_resetWord hw s later) k

/-- Settles O14: after the `RESET` word all three runs go on from the reset engine with the same later actions,
and differ only in the record, which no run reads. -/
theorem resetErasesPriorUse : Obligations.ResetErasesPriorUse := by
  intro s s' w later k t hw h
  rw [run_resetWord hw] at h
  obtain hrefused | ⟨e, rest, shown, hrun⟩ := run_ignores_record k .reset later
  · cases (hrefused _).symm.trans h
  · cases (hrun _).symm.trans h
    exact ⟨_, shown, (run_resetWord hw s' later k).trans (hrun _), rfl, rfl,
      List.append_assoc .., List.append_assoc .., hrun []⟩

end Sys2Proof.Machine
end

section
/-! The decoder reads back the canonical word of every command (R51, R54). -/

namespace Sys2Proof

@[simp] theorem immField_commandWord (op : BitVec 2) (imm8 : Byte) : immField (commandWord op imm8) = imm8 :=
  BitVec.extractLsb'_append_eq_right

@[simp] theorem decode_encode (i : Instr) : decode (encode i) = i := by
  cases i with
  | reset => exact decode_of_opField_zero (opField_commandWord 0 0)
  | absorb imm8 => rw [encode, decode_of_opField_one (opField_commandWord 1 imm8), immField_commandWord]
  | finalize => exact decode_of_opField_two (opField_commandWord 2 0)
  | reserved => exact decode_of_opField_three (opField_commandWord 3 0)

end Sys2Proof
end

section
/-! The message that the engine holds: the reset engine holds none, an accepted byte appends to it, and
`FINALIZE` makes its last lanes (R24, R71, R79, R96). -/

namespace Sys2Proof.Machine

/-- In the ABSORBING phase an engine holds `m` when its count, pending bytes and lanes are R79's. -/
theorem Engine.holdsMessage_of_absorbing {e : Engine} {m : List Byte} (hphase : e.phase = .absorbing)
    (hcnt : e.cnt.val = m.length % 136) (hpending : e.pendingBytes = messageTail m)
    (hlanes : e.lanes = messageLanes m) : e.HoldsMessage m where
  cnt _ := hcnt
  pending _ := hpending
  lanes _ := hlanes
  drained hfinalized := absurd (hphase.symm.trans hfinalized) Phase.noConfusion
  digest hfinalized := absurd (hphase.symm.trans hfinalized) Phase.noConfusion
  padded hfinalized := absurd (hphase.symm.trans hfinalized) Phase.noConfusion

/-- The reset engine holds the empty message (R24). -/
theorem reset_holdsMessage : Engine.reset.HoldsMessage [] :=
  Engine.holdsMessage_of_absorbing rfl rfl rfl rfl

/-- An accepted byte is appended to the message, whether or not it fills the buffer (R71, R79). -/
theorem acceptByte_holdsMessage {e : Engine} {m : List Byte} (hphase : e.phase = .absorbing)
    (h : e.HoldsMessage m) (b : Byte) : (e.acceptByte b).HoldsMessage (m ++ [b]) := by
  have hcnt := h.cnt hphase
  have hpending : e.buf.toList.take e.cnt.val = messageTail m := h.pending hphase
  have hlanes := h.lanes hphase
  have hphase' : (e.acceptByte b).phase = .absorbing := (acceptByte_phase e b).trans hphase
  have hlength : (m ++ [b]).length = m.length + 1 := List.length_append
  obtain ⟨hroom, heq⟩ | ⟨hfull, heq⟩ := acceptByte_cases e b
  · obtain ⟨htail, hkept⟩ := message_append_room m b (hcnt ▸ hroom)
    rw [heq] at hphase' ⊢
    refine Engine.holdsMessage_of_absorbing hphase' ?_ ?_ (hlanes.trans hkept.symm)
    · show e.cnt.val + 1 = _
      omega
    · rw [htail, ← hpending]
      exact take_memWrite1 e.buf e.cnt b
  · obtain ⟨htail, hblock⟩ := message_append_full m b (hcnt ▸ hfull)
    rw [heq] at hphase' ⊢
    refine Engine.holdsMessage_of_absorbing hphase' ?_ htail.symm ?_
    · show 0 = _
      omega
    · rw [hblock, ← hpending, firstBlock_pending e.buf e.cnt b hfull, ← hlanes]
      rfl

@[simp] theorem foldl_acceptByte_phase (data : List Byte) (e : Engine) :
    (data.foldl Engine.acceptByte e).phase = e.phase := by
  induction data generalizing e with
  | nil => rfl
  | cons b data ih => rw [List.foldl_cons, ih, acceptByte_phase]

/-- The bytes of `data`, accepted in order, are appended to the message (R76, R79). -/
theorem foldl_acceptByte_holdsMessage {e : Engine} {m : List Byte} (hphase : e.phase = .absorbing)
    (h : e.HoldsMessage m) (data : List Byte) :
    (data.foldl Engine.acceptByte e).HoldsMessage (m ++ data) := by
  induction data generalizing e m with
  | nil => rwa [List.append_nil]
  | cons b data ih =>
    rw [List.append_cons]
    exact ih ((acceptByte_phase e b).trans hphase) (acceptByte_holdsMessage hphase h b)

/-- `FINALIZE` absorbs the padded rest of the message into the lanes of its full blocks (R90, R96). -/
theorem finalize_lanes_of_holdsMessage {e : Engine} {m : List Byte} (hphase : e.phase = .absorbing)
    (h : e.HoldsMessage m) : e.finalize.lanes = finalLanes m := by
  have hpending : e.buf.toList.take e.cnt.val = messageTail m := h.pending hphase
  rw [Engine.finalize_lanes, padInPlace_eq_padBlock, hpending, h.lanes hphase, finalLanes]

end Sys2Proof.Machine
end

section
/-! The runs of the command sequences of `update`, of a message and `FINALIZE`, and of the one-shot hash (R76,
R79, R140 to R142). -/

namespace Sys2Proof.Machine

/-- Words presented one after the other are two presentations, the later one made first. -/
theorem present_append (s : State) (ws ws' : List CommandWord) :
    s.present (ws ++ ws') = (s.present ws').present ws := by
  simp [State.present]

/-- One command, presented by its canonical word, takes one step (R50, R54). -/
theorem step_present_encode (s : State) (i : Instr) (ws : List CommandWord) :
    step (s.present (encode i :: ws)) = exec i (s.present ws) := by
  rw [step_command _ (encode i) (s.present ws).pending rfl, decode_encode]
  rfl

/-- The updates of successive chunks are the update of their concatenation, empty chunks included (R76, R78). -/
theorem flatMap_updateWords (chunks : List (List Byte)) :
    chunks.flatMap updateWords = updateWords chunks.flatten := by
  rw [updateWords, List.map_flatten]
  rfl

/-- In the ABSORBING phase an update accepts its bytes in order, each with the response `OK` (R71, R76). -/
theorem run_updateWords (data : List Byte) (s : State) (hphase : s.engine.phase = .absorbing) :
    run data.length (s.present (updateWords data)) =
      .next ⟨data.foldl Engine.acceptByte s.engine, s.pending,
        s.outputs ++ List.replicate data.length (.response .ok)⟩ := by
  induction data generalizing s with
  | nil => simp [run, updateWords, State.present]
  | cons b data ih =>
    have hstep : step (s.present (updateWords (b :: data))) =
        .next (State.present ⟨s.engine.acceptByte b, s.pending, s.outputs ++ [.response .ok]⟩
          (updateWords data)) :=
      (step_present_encode s (.absorb b) (updateWords data)).trans (exec_absorb_absorbing b _ hphase)
    rw [List.length_cons, run_succ_of_step hstep]
    exact (ih _ ((acceptByte_phase _ b).trans hphase)).trans (by simp [List.replicate_succ])

/-- `FINALIZE` after an update shows the digest of the message that the engine held with the update's bytes
appended (R90, R96). -/
theorem run_updateWords_finalize (data : List Byte) {m : List Byte} (s : State)
    (hphase : s.engine.phase = .absorbing) (h : s.engine.HoldsMessage m) :
    run (data.length + 1) (s.present (updateWords data ++ [encode .finalize])) =
      .next ⟨(data.foldl Engine.acceptByte s.engine).finalize, s.pending,
        s.outputs ++ List.replicate data.length (.response .ok) ++
          [.response (.digest (keccak256 (m ++ data)))]⟩ := by
  have hphase' := (foldl_acceptByte_phase data s.engine).trans hphase
  have hlanes := finalize_lanes_of_holdsMessage hphase' (foldl_acceptByte_holdsMessage hphase h data)
  have hupdate := run_updateWords data (s.present [encode .finalize]) hphase
  rw [present_append, run_succ_eq_advance, hupdate, advance_next]
  have hfinalize := step_present_encode ⟨data.foldl Engine.acceptByte s.engine, s.pending,
    s.outputs ++ List.replicate data.length (.response .ok)⟩ .finalize []
  rw [exec_finalize_absorbing _ hphase'] at hfinalize
  rw [keccak256, ← hlanes]
  exact hfinalize

/-- The one-shot hash of `m` resets the engine, whatever its state, and then shows the digest of `m` last
(R140, R141). -/
theorem run_hashWords (m : List Byte) (s : State) :
    run (m.length + 2) (s.present (hashWords m)) =
      .next ⟨(m.foldl Engine.acceptByte .reset).finalize, s.pending,
        s.outputs ++ [.response .ok] ++ List.replicate m.length (.response .ok) ++
          [.response (.digest (keccak256 m))]⟩ := by
  have hreset : run (m.length + 2) (s.present (hashWords m)) =
      run (m.length + 1) (State.present ⟨.reset, s.pending, s.outputs ++ [.response .ok]⟩
        (updateWords m ++ [encode .finalize])) :=
    run_resetWord (decode_encode .reset) s _ (m.length + 1)
  rw [hreset]
  exact run_updateWords_finalize (m := []) m _ rfl reset_holdsMessage

/-- Settles O52: the chunks are one update of their concatenation, and both runs show its `Keccak256` last. -/
theorem streamingEquivalence : Obligations.StreamingEquivalence := by
  intro chunks s s' hengine
  have hphase : s.engine.phase = .absorbing := congrArg Engine.phase hengine
  have hempty : s.engine.HoldsMessage [] := hengine ▸ reset_holdsMessage
  have hstream := run_updateWords_finalize chunks.flatten s hphase hempty
  have hhash := run_hashWords chunks.flatten s'
  rw [flatMap_updateWords]
  exact ⟨_, _, hstream, hhash, List.getLast?_concat.trans List.getLast?_concat.symm, List.getLast?_concat⟩

end Sys2Proof.Machine
end

section
/-! The refusals of usage errors: which command a cause is raised by, in which phase (R151, R152, R153). -/

namespace Sys2Proof.Machine

/-- The response of a command is the last thing shown, so two answers that are equal show equal responses. -/
theorem response_eq_of_next_eq {e e' : Engine} {later later' : List HostAction} {shown : List PortOutput}
    {r r' : Response}
    (h : (.next ⟨e, later, shown ++ [.response r]⟩ : Host.Outcome State Fault Refusal) =
      .next ⟨e', later', shown ++ [.response r']⟩) : r = r' := by
  simp only [Host.Outcome.next.injEq, State.mk.injEq, List.append_cancel_left_eq, List.cons.injEq,
    PortOutput.response.injEq] at h
  obtain ⟨-, -, hr, -⟩ := h
  exact hr

/-- Settles O23: refused, both commands answer so; any other command or phase shows another response. -/
theorem alreadyFinalizedExactlyWhen : Obligations.AlreadyFinalizedExactlyWhen := by
  intro i s
  constructor
  · intro h
    cases i with
    | reset => cases response_eq_of_next_eq ((exec_reset s).symm.trans h)
    | reserved => cases response_eq_of_next_eq ((exec_reserved s).symm.trans h)
    | absorb b =>
      cases hphase : s.engine.phase with
      | absorbing => cases response_eq_of_next_eq ((exec_absorb_absorbing b s hphase).symm.trans h)
      | finalized => exact ⟨rfl, .inr ⟨b, rfl⟩⟩
    | finalize =>
      cases hphase : s.engine.phase with
      | absorbing => cases response_eq_of_next_eq ((exec_finalize_absorbing s hphase).symm.trans h)
      | finalized => exact ⟨rfl, .inl rfl⟩
  · rintro ⟨hphase, rfl | ⟨b, rfl⟩⟩
    · exact exec_finalize_finalized s hphase
    · exact exec_absorb_finalized b s hphase

/-- Settles O24: a word with the reserved opcode decodes to the one command that raises cause 2, in any state. -/
theorem reservedWordRefused : Obligations.ReservedWordRefused := by
  intro w s hw
  rw [decode_of_opField_three ((and_opcodeMask_eq_commandWord_iff w 3).mp hw)]
  exact exec_reserved s

end Sys2Proof.Machine
end

section
/-! An instance of a system after a whole schedule: only its own turns count for it (R163). -/

namespace Sys2Proof.Machine

/-- The last turn of a schedule is a step of the system that the turns before it came to. -/
theorem systemRun_concat {n : Nat} (schedule : List (Fin n)) (j : Fin n) (S : System n) :
    systemRun (schedule ++ [j]) S = systemStep (systemRun schedule S) j :=
  systemRun_append schedule [j] S

/-- Settles O59, by induction on the schedule from its end: the last turn advances the instance by one step of
its own run if the turn is its own, refusals included, and leaves it as it is if not. -/
theorem interleavingGivesSoloResults : Obligations.InterleavingGivesSoloResults := by
  intro n schedule states i
  induction schedule using List.reverseRecOn with
  | nil => exact getElem_systemOf states i.val i.isLt
  | append_singleton schedule j ih =>
    rw [systemRun_concat]
    by_cases hturn : j = i
    · subst hturn
      have hcount : (schedule ++ [j]).count j = schedule.count j + 1 := by simp
      rw [getElem_systemStep, if_pos rfl, ih, hcount, run_succ_eq_advance]
    · have hcount : (schedule ++ [j]).count i = schedule.count i := by simp [hturn]
      rw [getElem_systemStep_of_ne _ j i.isLt (Fin.val_ne_of_ne (Ne.symm hturn)), ih, hcount]

end Sys2Proof.Machine
end

section
/-! Every command reads back through the table decoder too, and the words written as numbers (R51, R54). -/

namespace Sys2Proof

/-- A command word fits the table's 10 bits, so the table decoder reads it as the port does (R51). -/
theorem decodeTableWord_toNat (w : CommandWord) : decodeTableWord 10 w.toNat = some (decode w) := by
  have hfits : wordFits w.toNat = true := decide_eq_true w.isLt
  rw [decodeTableWord, Nat.mod_eq_of_lt w.isLt, decodeRaw, if_pos hfits, BitVec.ofNat_toNat, BitVec.setWidth_eq]

/-- Opcode 1 stands above the byte as the bit 0x100 (R51). -/
theorem commandWord_one_eq_or (b : Byte) : commandWord 1 b = 0x100 ||| b.setWidth 10 :=
  BitVec.append_def 1#2 b

/-- Settles O2: the decoder reads back the opcode and, for `ABSORB`, the byte of a canonical word. -/
theorem decodeReadsBackEveryEncoding : Obligations.DecodeReadsBackEveryEncoding := by
  refine ⟨fun i => ⟨decode_encode i, ?_⟩, rfl, rfl, commandWord_one_eq_or⟩
  rw [decodeTableWord_toNat, decode_encode]

end Sys2Proof
end

section
/-! What a command and an action do to the engine and show the host, as relations with one case per outcome:
R174's table with the port reads and power-on reset (R19, R20, R151 to R153, R170). -/

namespace Sys2Proof.Machine

/-- What a command can make of the engine, and its response. -/
inductive CommandEffect (e : Engine) : Instr → Engine → Response → Prop
  | reset : CommandEffect e .reset .reset .ok
  | accept {b : Byte} (hphase : e.phase = .absorbing) : CommandEffect e (.absorb b) (e.acceptByte b) .ok
  | finalize (hphase : e.phase = .absorbing) :
    CommandEffect e .finalize e.finalize (.digest (squeeze e.finalize.lanes))
  | refuse {i : Instr} {c : Cause} (hcause : refusalCause i e.phase = some c) :
    CommandEffect e i (e.setSticky c) (.error c)

/-- What an action of the host can make of the engine, and what it shows. -/
inductive ActionEffect (e : Engine) : HostAction → Engine → List PortOutput → Prop
  | command {w : CommandWord} {e' : Engine} {r : Response} (heffect : CommandEffect e (decode w) e' r) :
    ActionEffect e (.command w) e' [.response r]
  | readStatus : ActionEffect e .readStatus e [.status e.status]
  | readDigest (hphase : e.phase = .finalized) : ActionEffect e .readDigest e [.digest (digestWord e.lanes)]
  | powerOnReset : ActionEffect e .powerOnReset .reset []

/-- A command with a cause of refusal is refused with it (R151 to R153). -/
theorem exec_of_refusalCause {i : Instr} {c : Cause} (s : State) (h : refusalCause i s.engine.phase = some c) :
    exec i s = .next ⟨s.engine.setSticky c, s.pending, s.outputs ++ [.response (.error c)]⟩ := by
  cases i with
  | reset => cases h
  | reserved => cases h; exact exec_reserved s
  | absorb b =>
    cases hphase : s.engine.phase with
    | absorbing => rw [hphase] at h; cases h
    | finalized => rw [hphase] at h; cases h; exact exec_absorb_finalized b s hphase
  | finalize =>
    cases hphase : s.engine.phase with
    | absorbing => rw [hphase] at h; cases h
    | finalized => rw [hphase] at h; cases h; exact exec_finalize_finalized s hphase

/-- An effect is what `exec` answers. -/
theorem CommandEffect.exec_eq {i : Instr} {s : State} {e' : Engine} {r : Response}
    (h : CommandEffect s.engine i e' r) :
    exec i s = .next ⟨e', s.pending, s.outputs ++ [.response r]⟩ := by
  cases h with
  | reset => exact exec_reset s
  | accept hphase => exact exec_absorb_absorbing _ s hphase
  | finalize hphase => exact exec_finalize_absorbing s hphase
  | refuse hcause => exact exec_of_refusalCause s hcause

/-- Every command has an effect in every state of the engine (R174). -/
theorem exists_commandEffect (e : Engine) (i : Instr) : ∃ e' r, CommandEffect e i e' r := by
  cases i with
  | reset => exact ⟨_, _, .reset⟩
  | reserved => exact ⟨_, _, .refuse rfl⟩
  | absorb b =>
    cases hphase : e.phase with
    | absorbing => exact ⟨_, _, .accept hphase⟩
    | finalized => exact ⟨_, _, .refuse (c := .alreadyFinalized) (by rw [hphase]; rfl)⟩
  | finalize =>
    cases hphase : e.phase with
    | absorbing => exact ⟨_, _, .finalize hphase⟩
    | finalized => exact ⟨_, _, .refuse (c := .alreadyFinalized) (by rw [hphase]; rfl)⟩

/-- The effect of a word is that of the command which it decodes to. -/
theorem ActionEffect.of_decode {e e' : Engine} {w : CommandWord} {i : Instr} {r : Response} (hw : decode w = i)
    (h : CommandEffect e i e' r) : ActionEffect e (.command w) e' [.response r] :=
  .command (hw ▸ h)

/-- An effect is what `step` answers to the action at the head of what the host presents. -/
theorem ActionEffect.step_eq {s : State} {a : HostAction} {rest : List HostAction} {e' : Engine}
    {shown : List PortOutput} (h : ActionEffect s.engine a e' shown) (hpending : s.pending = a :: rest) :
    step s = .next ⟨e', rest, s.outputs ++ shown⟩ := by
  cases h with
  | command heffect =>
    rw [step_command s _ rest hpending]
    exact heffect.exec_eq (s := { s with pending := rest })
  | readStatus => exact step_readStatus s rest hpending
  | readDigest hphase => exact step_readDigest_finalized s rest hpending hphase
  | powerOnReset => rw [step_powerOnReset s rest hpending, List.append_nil]

/-- An action has no effect, and is refused, only as the read of a DIGEST port that is not valid (R20, R176). -/
theorem exists_actionEffect_or_invalidRead (e : Engine) (a : HostAction) :
    (∃ e' shown, ActionEffect e a e' shown) ∨ e.phase = .absorbing ∧ a = .readDigest := by
  cases a with
  | command w =>
    obtain ⟨e', r, heffect⟩ := exists_commandEffect e (decode w)
    exact .inl ⟨e', _, .command heffect⟩
  | readStatus => exact .inl ⟨_, _, .readStatus⟩
  | readDigest =>
    cases hphase : e.phase with
    | absorbing => exact .inr ⟨rfl, rfl⟩
    | finalized => exact .inl ⟨_, _, .readDigest hphase⟩
  | powerOnReset => exact .inl ⟨_, _, .powerOnReset⟩

/-- What a step answers is the state after one of the effects of the action it takes. -/
theorem step_inversion {s t : State} {a : HostAction} {rest : List HostAction} (hpending : s.pending = a :: rest)
    (h : step s = .next t) :
    ∃ e' shown, ActionEffect s.engine a e' shown ∧ t = ⟨e', rest, s.outputs ++ shown⟩ := by
  obtain ⟨e', shown, heffect⟩ | ⟨hphase, rfl⟩ := exists_actionEffect_or_invalidRead s.engine a
  · exact ⟨e', shown, heffect, Host.Outcome.next.inj (h.symm.trans (heffect.step_eq hpending))⟩
  · cases h.symm.trans (step_readDigest_absorbing s rest hpending hphase)

/-- A step that answers a next state is idle, or it has one of the effects of the action that it takes. -/
theorem step_cases {s t : State} (h : step s = .next t) :
    s.pending = [] ∧ t = s ∨ ∃ a rest e' shown, s.pending = a :: rest ∧ ActionEffect s.engine a e' shown ∧
      t = ⟨e', rest, s.outputs ++ shown⟩ := by
  cases hpending : s.pending with
  | nil => exact .inl ⟨rfl, Host.Outcome.next.inj (h.symm.trans (step_idle s hpending))⟩
  | cons a rest =>
    obtain ⟨e', shown, heffect, ht⟩ := step_inversion hpending h
    exact .inr ⟨a, rest, e', shown, rfl, heffect, ht⟩

end Sys2Proof.Machine
end

section
/-! Every step keeps the held message (R79, R96, R97). -/

namespace Sys2Proof.Machine

/-- `FINALIZE` leaves what the held message determines (R96, R97). -/
theorem finalize_holdsMessage {e : Engine} {m : List Byte} (hphase : e.phase = .absorbing)
    (h : e.HoldsMessage m) : e.finalize.HoldsMessage m where
  cnt habsorbing := nomatch habsorbing
  pending habsorbing := nomatch habsorbing
  lanes habsorbing := nomatch habsorbing
  drained _ := rfl
  digest _ := finalize_lanes_of_holdsMessage hphase h
  padded _ := by
    rw [Engine.finalize_buf, padInPlace_eq_padBlock]
    exact congrArg padBlock (h.pending hphase)

/-- The error bits have no part in the held message. -/
theorem setSticky_holdsMessage {e : Engine} {m : List Byte} (h : e.HoldsMessage m) (c : Cause) :
    (e.setSticky c).HoldsMessage m := by
  obtain ⟨hcnt, hpending, hlanes, hdrained, hdigest, hpadded⟩ := h
  cases c <;> exact ⟨hcnt, hpending, hlanes, hdrained, hdigest, hpadded⟩

/-- A refused command leaves the message as it is (R152). -/
theorem messageAfter_of_refusalCause {w : CommandWord} {phase : Phase} {c : Cause}
    (h : refusalCause (decode w) phase = some c) (m : List Byte) : messageAfter (.command w) phase m = m := by
  cases hw : decode w with
  | reset => rw [hw] at h; cases h
  | absorb b =>
    cases phase with
    | absorbing => rw [hw] at h; cases h
    | finalized => simp [messageAfter, commandOf, hw]
  | finalize => simp [messageAfter, commandOf, hw]
  | reserved => simp [messageAfter, commandOf, hw]

theorem CommandEffect.holdsMessage {e e' : Engine} {w : CommandWord} {r : Response} {m : List Byte}
    (h : CommandEffect e (decode w) e' r) (hm : e.HoldsMessage m) :
    e'.HoldsMessage (messageAfter (.command w) e.phase m) := by
  generalize hw : decode w = i at h
  cases h with
  | reset => simpa [messageAfter, commandOf, hw] using reset_holdsMessage
  | accept hphase => simpa [messageAfter, commandOf, hw, hphase] using acceptByte_holdsMessage hphase hm _
  | finalize hphase => simpa [messageAfter, commandOf, hw] using finalize_holdsMessage hphase hm
  | refuse hcause =>
    rw [messageAfter_of_refusalCause (hw ▸ hcause)]
    exact setSticky_holdsMessage hm _

theorem ActionEffect.holdsMessage {e e' : Engine} {a : HostAction} {shown : List PortOutput} {m : List Byte}
    (h : ActionEffect e a e' shown) (hm : e.HoldsMessage m) : e'.HoldsMessage (messageAfter a e.phase m) := by
  cases h with
  | command heffect => exact heffect.holdsMessage hm
  | readStatus => exact hm
  | readDigest _ => exact hm
  | powerOnReset => exact reset_holdsMessage

/-- Settles O34: every effect of an action leaves the engine holding the message that the action leaves. -/
theorem stepKeepsHeldMessage : Obligations.StepKeepsHeldMessage := by
  intro s t a rest m hpending hm hstep
  obtain ⟨e', shown, heffect, rfl⟩ := step_inversion hpending hstep
  exact heffect.holdsMessage hm

end Sys2Proof.Machine
end

section
/-! Stale buffer bytes act on no effect of an action (R23, D14). -/

namespace Sys2Proof.Machine

theorem Engine.AgreesUpToStale.refl (e : Engine) : e.AgreesUpToStale e :=
  ⟨rfl, rfl, rfl, rfl, rfl, fun _ _ _ => rfl⟩

/-- The byte stored at the count is occupied after it, and the bytes below it are those that agree already. -/
theorem getElem_memWrite1_of_agrees {e f : Engine} (h : e.AgreesUpToStale f) (b : Byte) {k : Nat} (hk : k < 136)
    (hocc : k < e.cnt.val + 1) : (memWrite1 e.buf e.cnt b)[k] = (memWrite1 f.buf f.cnt b)[k] := by
  rw [getElem_memWrite1, getElem_memWrite1, ← h.cnt]
  split
  next => rfl
  next hne => exact h.occupied k hk (by omega)

/-- The pending bytes are the occupied ones, so the padded blocks agree in full (R90, R91). -/
theorem padInPlace_eq_of_agrees {e f : Engine} (h : e.AgreesUpToStale f) :
    padInPlace e.buf e.cnt = padInPlace f.buf f.cnt := by
  apply Vector.ext
  intro k hk
  rw [getElem_padInPlace, getElem_padInPlace, ← h.cnt]
  split
  next hocc => rw [h.occupied k hk hocc]
  next => rfl

theorem acceptByte_agrees {e f : Engine} (h : e.AgreesUpToStale f) (b : Byte) :
    (e.acceptByte b).AgreesUpToStale (f.acceptByte b) := by
  have hstored := fun k hk => getElem_memWrite1_of_agrees h b (k := k) hk
  obtain ⟨hlanes, hcnt, hphase, hfin, hill, -⟩ := h
  obtain hroom | hfull : e.cnt.val + 1 < 136 ∨ e.cnt.val = 135 := by omega
  · rw [acceptByte_of_lt e b hroom, acceptByte_of_lt f b (hcnt ▸ hroom)]
    exact ⟨hlanes, by simp only [hcnt], hphase, hfin, hill, hstored⟩
  · have hbuf : memWrite1 e.buf e.cnt b = memWrite1 f.buf f.cnt b :=
      Vector.ext fun k hk => hstored k hk (by omega)
    rw [acceptByte_of_full e b hfull, acceptByte_of_full f b (hcnt ▸ hfull), hbuf]
    exact ⟨congrArg (absorbLanes · _) hlanes, rfl, hphase, hfin, hill, fun _ _ _ => rfl⟩

theorem finalize_agrees {e f : Engine} (h : e.AgreesUpToStale f) : e.finalize.AgreesUpToStale f.finalize where
  lanes := by rw [Engine.finalize_lanes, Engine.finalize_lanes, h.lanes, padInPlace_eq_of_agrees h]
  cnt := rfl
  phase := rfl
  errFinalized := h.errFinalized
  errIllegal := h.errIllegal
  occupied k hk _ := by rw [Engine.finalize_buf, Engine.finalize_buf, padInPlace_eq_of_agrees h]

theorem setSticky_agrees {e f : Engine} (h : e.AgreesUpToStale f) (c : Cause) :
    (e.setSticky c).AgreesUpToStale (f.setSticky c) := by
  obtain ⟨hlanes, hcnt, hphase, hfin, hill, hocc⟩ := h
  cases c with
  | alreadyFinalized => exact ⟨hlanes, hcnt, hphase, rfl, hill, hocc⟩
  | illegalCommand => exact ⟨hlanes, hcnt, hphase, hfin, rfl, hocc⟩

/-- STATUS shows the count and the flags, no buffer byte (R19). -/
theorem status_eq_of_agrees {e f : Engine} (h : e.AgreesUpToStale f) : e.status = f.status := by
  simp only [Engine.status, h.cnt, h.phase, h.errFinalized, h.errIllegal]

theorem CommandEffect.of_agrees {e e' f : Engine} {i : Instr} {r : Response} (h : CommandEffect e i e' r)
    (hagrees : e.AgreesUpToStale f) : ∃ f', CommandEffect f i f' r ∧ e'.AgreesUpToStale f' := by
  cases h with
  | reset => exact ⟨_, .reset, .refl _⟩
  | accept hphase => exact ⟨_, .accept (hagrees.phase ▸ hphase), acceptByte_agrees hagrees _⟩
  | finalize hphase =>
    have hfinal := finalize_agrees hagrees
    exact ⟨_, hfinal.lanes ▸ .finalize (hagrees.phase ▸ hphase), hfinal⟩
  | refuse hcause => exact ⟨_, .refuse (hagrees.phase ▸ hcause), setSticky_agrees hagrees _⟩

theorem ActionEffect.of_agrees {e e' f : Engine} {a : HostAction} {shown : List PortOutput}
    (h : ActionEffect e a e' shown) (hagrees : e.AgreesUpToStale f) :
    ∃ f', ActionEffect f a f' shown ∧ e'.AgreesUpToStale f' := by
  cases h with
  | command heffect =>
    obtain ⟨f', heffect', hagrees'⟩ := heffect.of_agrees hagrees
    exact ⟨f', .command heffect', hagrees'⟩
  | readStatus => exact ⟨f, status_eq_of_agrees hagrees ▸ .readStatus, hagrees⟩
  | readDigest hphase => exact ⟨f, hagrees.lanes ▸ .readDigest (hagrees.phase ▸ hphase), hagrees⟩
  | powerOnReset => exact ⟨_, .powerOnReset, .refl _⟩

/-- Two states that the host sees alike: the engines differ at most in stale bytes. -/
structure State.AgreesUpToStale (s s' : State) : Prop where
  engine : s.engine.AgreesUpToStale s'.engine
  pending : s.pending = s'.pending
  outputs : s.outputs = s'.outputs

theorem step_of_agrees {s s' t : State} (h : s.AgreesUpToStale s') (hstep : step s = .next t) :
    ∃ t', step s' = .next t' ∧ t.AgreesUpToStale t' := by
  obtain ⟨hengine, hpending, houtputs⟩ := h
  obtain ⟨hidle, rfl⟩ | ⟨a, rest, e', shown, hhead, heffect, rfl⟩ := step_cases hstep
  · exact ⟨s', step_idle s' (hpending ▸ hidle), hengine, hpending, houtputs⟩
  · obtain ⟨f', heffect', hagrees⟩ := heffect.of_agrees hengine
    exact ⟨_, heffect'.step_eq (hpending ▸ hhead), hagrees, rfl, congrArg (· ++ shown) houtputs⟩

theorem run_of_agrees {k : Nat} {s s' t : State} (h : s.AgreesUpToStale s') (hrun : run k s = .next t) :
    ∃ t', run k s' = .next t' ∧ t.AgreesUpToStale t' := by
  induction k generalizing s s' with
  | zero =>
    cases hrun
    exact ⟨s', rfl, h⟩
  | succ k ih =>
    obtain ⟨u, hstep, hrest⟩ := (run_succ k s t).mp hrun
    obtain ⟨u', hstep', hu⟩ := step_of_agrees h hstep
    obtain ⟨t', hrest', ht⟩ := ih hu hrest
    exact ⟨t', (run_succ_of_step hstep' k).trans hrest', ht⟩

/-- Settles O36, by induction on the number of steps: no effect of an action reads a stale byte. -/
theorem staleBytesUnobservable : Obligations.StaleBytesUnobservable := by
  intro k s s' t hengine hpending houtputs hrun
  obtain ⟨t', hrun', ht⟩ := run_of_agrees ⟨hengine, hpending, houtputs⟩ hrun
  exact ⟨t', hrun', ht.engine, ht.pending, ht.outputs⟩

end Sys2Proof.Machine
end

section
/-! Sequences of commands, folded from the left, and among them the sequences of refused ones (R43, R155). -/

namespace Sys2Proof.Machine

/-- The first of some presented words takes one step, which leaves the others presented (R43, R50). -/
theorem CommandEffect.step_present {s : State} {w : CommandWord} {e' : Engine} {r : Response}
    (h : CommandEffect s.engine (decode w) e' r) (ws : List CommandWord) :
    step (s.present (w :: ws)) = .next (State.present ⟨e', s.pending, s.outputs ++ [.response r]⟩ ws) :=
  ActionEffect.step_eq (s := s.present (w :: ws)) (.command h) rfl

/-- Settles O8, by induction on the words: the first step and the first command come to the same state, on which
the other words are presented. -/
theorem commandSequenceIsLeftFold : Obligations.CommandSequenceIsLeftFold := by
  intro ws
  induction ws with
  | nil => exact fun s => rfl
  | cons w ws ih =>
    intro s
    obtain ⟨e', r, heffect⟩ := exists_commandEffect s.engine (decode w)
    rw [List.length_cons, run_succ_of_step (heffect.step_present ws), ih, List.foldl_cons]
    simp only [heffect.exec_eq]

/-- The sticky bit of a cause is the cause's own, and setting it again is no change (R152). -/
theorem setSticky_eq (e : Engine) (c : Cause) : e.setSticky c =
    { e with
      errFinalized := e.errFinalized || some c == some .alreadyFinalized
      errIllegal := e.errIllegal || some c == some .illegalCommand } := by
  cases c <;> simp [Engine.setSticky]

/-- Settles O25, by induction on the words: a refusal keeps the phase, so that each word is refused with its own
cause. -/
theorem refusalsAreIdempotent : Obligations.RefusalsAreIdempotent := by
  intro ws
  induction ws with
  | nil => exact fun s _ => ⟨s, rfl, rfl, by simp, by simp⟩
  | cons w ws ih =>
    intro s hrefused
    obtain ⟨hw, hws⟩ := List.forall_mem_cons.mp hrefused
    obtain ⟨c, hc⟩ := Option.ne_none_iff_exists'.mp hw
    have hstep := (CommandEffect.refuse hc).step_present ws
    obtain ⟨t, hrun, hpending, hengine, houtputs⟩ :=
      ih ⟨s.engine.setSticky c, s.pending, s.outputs ++ [.response (.error c)]⟩
        (by simpa only [Engine.setSticky_phase] using hws)
    rw [Engine.setSticky_phase] at hengine houtputs
    refine ⟨t, (run_succ_of_step hstep ws.length).trans hrun, hpending, ?_, ?_⟩
    · rw [hengine, setSticky_eq]
      simp only [List.any_cons, hc, Bool.or_assoc]
    · simp [houtputs, hc]

end Sys2Proof.Machine
end

section
/-! What every action does to the error bits, and what no action does to a finalized engine but a reset (R17,
R98, R170). -/

namespace Sys2Proof.Machine

/-- Of the commands `RESET` alone resets (R170). -/
theorem resets_command (w : CommandWord) : (HostAction.command w).resets = decide (decode w = .reset) := by
  cases hw : decode w <;> simp [HostAction.resets, commandOf, hw]

theorem CommandEffect.engine_of_reset {e e' : Engine} {r : Response} (h : CommandEffect e .reset e' r) :
    e' = .reset := by
  cases h with
  | reset => rfl
  | refuse hcause => cases hcause

/-- A resetting action leaves the reset engine (R70, R170). -/
theorem ActionEffect.engine_of_resets {e e' : Engine} {a : HostAction} {shown : List PortOutput}
    (h : ActionEffect e a e' shown) (ha : a.resets = true) : e' = .reset := by
  cases h with
  | command heffect =>
    rw [resets_command, decide_eq_true_iff] at ha
    exact (ha ▸ heffect).engine_of_reset
  | readStatus => cases ha
  | readDigest _ => cases ha
  | powerOnReset => rfl

/-- Any command but `RESET` keeps a sticky bit that is set, and sets one exactly by the refusal of its cause. -/
theorem CommandEffect.sticky_iff {e e' : Engine} {i : Instr} {r : Response} (h : CommandEffect e i e' r)
    (hi : i ≠ .reset) (c : Cause) : e'.sticky c = true ↔ e.sticky c = true ∨ r = .error c := by
  cases h with
  | reset => exact absurd rfl hi
  | accept _ => simp
  | finalize _ => cases c <;> simp [Engine.sticky]
  | refuse _ =>
    rw [Engine.sticky_setSticky, Bool.or_eq_true, decide_eq_true_iff, Response.error.injEq, or_comm, @eq_comm _ c]

theorem ActionEffect.sticky_iff {e e' : Engine} {a : HostAction} {shown : List PortOutput}
    (h : ActionEffect e a e' shown) (ha : a.resets = false) (c : Cause) :
    e'.sticky c = true ↔ e.sticky c = true ∨ shown = [.response (.error c)] := by
  cases h with
  | command heffect =>
    rw [resets_command, decide_eq_false_iff_not] at ha
    simpa using heffect.sticky_iff ha c
  | readStatus => simp
  | readDigest _ => simp
  | powerOnReset => cases ha

/-- Settles O26: by whether the action resets, from the effects of an action on the bits. -/
theorem errorBitsAreSticky : Obligations.ErrorBitsAreSticky := by
  intro s t a rest c hpending hstep
  obtain ⟨e', shown, heffect, rfl⟩ := step_inversion hpending hstep
  refine ⟨fun ha => ?_, fun ha => ?_⟩
  · rw [heffect.engine_of_resets ha, Engine.reset_sticky]
  · simpa using heffect.sticky_iff ha c

/-- An action shows one output or, as power-on reset, none. -/
theorem ActionEffect.mem_shown_iff {e e' : Engine} {a : HostAction} {shown : List PortOutput}
    (h : ActionEffect e a e' shown) (o : PortOutput) : o ∈ shown ↔ shown = [o] := by
  cases h with
  | command _ => simpa using eq_comm
  | readStatus => simpa using eq_comm
  | readDigest _ => simpa using eq_comm
  | powerOnReset => simp

/-- The sticky bits are those of the causes whose refusals have been shown. -/
def State.StickyAsShown (s : State) : Prop :=
  ∀ c, s.engine.sticky c = true ↔ .response (.error c) ∈ s.outputs

theorem ActionEffect.stickyAsShown {s : State} {a : HostAction} {e' : Engine} {shown : List PortOutput}
    (h : ActionEffect s.engine a e' shown) (ha : a.resets = false) (hs : s.StickyAsShown)
    (rest : List HostAction) : State.StickyAsShown ⟨e', rest, s.outputs ++ shown⟩ := by
  intro c
  rw [h.sticky_iff ha, hs c, List.mem_append, h.mem_shown_iff]

theorem run_stickyAsShown {k : Nat} {s t : State} (hnoReset : ∀ a ∈ s.pending.take k, a.resets = false)
    (hs : s.StickyAsShown) (hrun : run k s = .next t) : t.StickyAsShown := by
  induction k generalizing s with
  | zero => cases hrun; exact hs
  | succ k ih =>
    obtain ⟨u, hstep, hrest⟩ := (run_succ k s t).mp hrun
    obtain ⟨hidle, rfl⟩ | ⟨a, rest, e', shown, hpending, heffect, rfl⟩ := step_cases hstep
    · exact ih (by simp [hidle]) hs hrest
    · rw [hpending, List.take_succ_cons, List.forall_mem_cons] at hnoReset
      obtain ⟨ha, hlater⟩ := hnoReset
      exact ih hlater (heffect.stickyAsShown ha hs rest) hrest

/-- Settles O28: with clear bits and nothing shown the bits are as shown, and so they stay. -/
theorem errorBitsReportUnsafeRun : Obligations.ErrorBitsReportUnsafeRun := by
  intro k s t hnoReset hfin hill hout hrun
  have hs : s.StickyAsShown := by
    intro c
    cases c <;> simp [Engine.sticky, hfin, hill, hout]
  have ht := run_stickyAsShown hnoReset hs hrun
  have hfinalized : t.engine.errFinalized = true ↔ _ := ht .alreadyFinalized
  have hillegal : t.engine.errIllegal = true ↔ _ := ht .illegalCommand
  rw [← Bool.not_eq_true, ← Bool.not_eq_true, hfinalized, hillegal]
  constructor
  · rintro ⟨hno1, hno2⟩ (_ | _)
    · exact hno1
    · exact hno2
  · exact fun hsafe => ⟨hsafe _, hsafe _⟩

/-- `e'` is `e`, FINALIZED, but for its error bits. -/
structure Engine.KeepsFinalized (e e' : Engine) : Prop where
  phase : e'.phase = .finalized
  lanes : e'.lanes = e.lanes
  buf : e'.buf = e.buf
  cnt : e'.cnt = e.cnt

theorem Engine.KeepsFinalized.trans {e e' e'' : Engine} (h : e.KeepsFinalized e') (h' : e'.KeepsFinalized e'') :
    e.KeepsFinalized e'' :=
  ⟨h'.phase, h'.lanes.trans h.lanes, h'.buf.trans h.buf, h'.cnt.trans h.cnt⟩

/-- In the FINALIZED phase every command but `RESET` is refused (R151, R153). -/
theorem CommandEffect.keepsFinalized {e e' : Engine} {i : Instr} {r : Response} (h : CommandEffect e i e' r)
    (hi : i ≠ .reset) (hphase : e.phase = .finalized) : e.KeepsFinalized e' := by
  cases h with
  | reset => exact absurd rfl hi
  | accept habsorbing => cases hphase.symm.trans habsorbing
  | finalize habsorbing => cases hphase.symm.trans habsorbing
  | refuse _ => exact ⟨by rw [Engine.setSticky_phase, hphase], by simp, by simp, by simp⟩

theorem ActionEffect.keepsFinalized {e e' : Engine} {a : HostAction} {shown : List PortOutput}
    (h : ActionEffect e a e' shown) (ha : a.resets = false) (hphase : e.phase = .finalized) :
    e.KeepsFinalized e' := by
  cases h with
  | command heffect =>
    rw [resets_command, decide_eq_false_iff_not] at ha
    exact heffect.keepsFinalized ha hphase
  | readStatus => exact ⟨hphase, rfl, rfl, rfl⟩
  | readDigest _ => exact ⟨hphase, rfl, rfl, rfl⟩
  | powerOnReset => cases ha

/-- A run without a reset from a FINALIZED engine completes, since the DIGEST port is valid (R20, R98). -/
theorem run_keepsFinalized (k : Nat) (s : State) (hphase : s.engine.phase = .finalized)
    (hnoReset : ∀ a ∈ s.pending.take k, a.resets = false) :
    ∃ t, run k s = .next t ∧ s.engine.KeepsFinalized t.engine := by
  induction k generalizing s with
  | zero => exact ⟨s, rfl, hphase, rfl, rfl, rfl⟩
  | succ k ih =>
    cases hpending : s.pending with
    | nil =>
      rw [run_succ_of_step (step_idle s hpending)]
      exact ih s hphase (by simp [hpending])
    | cons a rest =>
      rw [hpending, List.take_succ_cons, List.forall_mem_cons] at hnoReset
      obtain ⟨ha, hlater⟩ := hnoReset
      obtain ⟨e', shown, heffect⟩ | ⟨habsorbing, -⟩ := exists_actionEffect_or_invalidRead s.engine a
      · have hkept := heffect.keepsFinalized ha hphase
        obtain ⟨t, hrun, ht⟩ := ih ⟨e', rest, s.outputs ++ shown⟩ hkept.phase hlater
        exact ⟨t, (run_succ_of_step (heffect.step_eq hpending) k).trans hrun, hkept.trans ht⟩
      · cases hphase.symm.trans habsorbing

/-- Settles O22: the run keeps the lanes and the phase, of which the port is a view. -/
theorem digestHoldsUntilReset : Obligations.DigestHoldsUntilReset := by
  intro k s hphase hnoReset
  obtain ⟨t, hrun, hkept⟩ := run_keepsFinalized k s hphase hnoReset
  refine ⟨t, hrun, hkept.phase, hkept.lanes, hkept.buf, hkept.cnt, ?_⟩
  rw [Engine.digestPort_finalized _ hkept.phase, hkept.lanes]

end Sys2Proof.Machine
end

section
/-! The legal engine, and the actions that change its lanes (R12, R175). -/

namespace Sys2Proof.Machine

theorem reset_legal : Engine.reset.Legal := ⟨fun _ => rfl, fun _ => rfl⟩

/-- Cause 1 is a refusal of the FINALIZED phase (R151). -/
theorem phase_of_refusalCause_alreadyFinalized {i : Instr} {phase : Phase}
    (h : refusalCause i phase = some .alreadyFinalized) : phase = .finalized := by
  cases phase with
  | absorbing => cases i <;> cases h
  | finalized => rfl

theorem CommandEffect.legal {e e' : Engine} {i : Instr} {r : Response} (h : CommandEffect e i e' r)
    (hlegal : e.Legal) : e'.Legal := by
  cases h with
  | reset => exact reset_legal
  | accept hphase =>
    refine ⟨fun hfinalized => ?_, fun _ => ?_⟩
    · rw [acceptByte_phase, hphase] at hfinalized
      cases hfinalized
    · rw [acceptByte_errFinalized]
      exact hlegal.absorbingUnrefused hphase
  | finalize _ => exact ⟨fun _ => rfl, fun habsorbing => nomatch habsorbing⟩
  | @refuse _ c hcause =>
    refine ⟨fun hfinalized => ?_, fun habsorbing => ?_⟩
    · rw [Engine.setSticky_phase] at hfinalized
      rw [Engine.setSticky_cnt]
      exact hlegal.finalizedDrained hfinalized
    · rw [Engine.setSticky_phase] at habsorbing
      cases c with
      | alreadyFinalized => cases habsorbing.symm.trans (phase_of_refusalCause_alreadyFinalized hcause)
      | illegalCommand => exact hlegal.absorbingUnrefused habsorbing

theorem ActionEffect.legal {e e' : Engine} {a : HostAction} {shown : List PortOutput}
    (h : ActionEffect e a e' shown) (hlegal : e.Legal) : e'.Legal := by
  cases h with
  | command heffect => exact heffect.legal hlegal
  | readStatus => exact hlegal
  | readDigest _ => exact hlegal
  | powerOnReset => exact reset_legal

/-- Settles O33: an idle step holds the state, and every effect of an action leaves a legal engine. -/
theorem stepKeepsLegal : Obligations.StepKeepsLegal := by
  intro s t hlegal hstep
  obtain ⟨-, rfl⟩ | ⟨a, rest, e', shown, -, heffect, rfl⟩ := step_cases hstep
  · exact hlegal
  · exact heffect.legal hlegal

/-- Settles O32: the reset engine is legal and holds the empty message. -/
theorem resetStateLegal : Obligations.ResetStateLegal := ⟨reset_legal, reset_holdsMessage⟩

/-- The commands that change a lane: `RESET`, a `FINALIZE`, and the `ABSORB` that fills the buffer (R175 (f)). -/
theorem CommandEffect.lanes_changed {e e' : Engine} {i : Instr} {r : Response} (h : CommandEffect e i e' r)
    (hlanes : e'.lanes ≠ e.lanes) :
    i = .reset ∨ e.phase = .absorbing ∧ (i = .finalize ∨ (∃ b, i = .absorb b) ∧ e.cnt.val = 135) := by
  cases h with
  | reset => exact .inl rfl
  | @accept b hphase =>
    obtain hroom | hfull : e.cnt.val < 135 ∨ e.cnt.val = 135 := by omega
    · exact absurd (acceptByte_counts_of_room e b hroom).2 hlanes
    · exact .inr ⟨hphase, .inr ⟨⟨b, rfl⟩, hfull⟩⟩
  | finalize hphase => exact .inr ⟨hphase, .inl rfl⟩
  | refuse _ => exact absurd (Engine.setSticky_lanes e _) hlanes

/-- Settles O35: an idle step and a port read keep the lanes, and a command changes them in three cases. -/
theorem lanesChangeOnlyByAbsorbStepOrReset : Obligations.LanesChangeOnlyByAbsorbStepOrReset := by
  intro s t hstep hlanes
  obtain ⟨-, rfl⟩ | ⟨a, rest, e', shown, hpending, heffect, rfl⟩ := step_cases hstep
  · exact absurd rfl hlanes
  · refine ⟨a, rest, hpending, ?_⟩
    cases heffect with
    | @command w e' r hcommand =>
      obtain hreset | hchanged := hcommand.lanes_changed hlanes
      · exact .inl (by rw [resets_command, hreset]; rfl)
      · exact .inr ⟨w, rfl, hchanged⟩
    | readStatus => exact absurd rfl hlanes
    | readDigest _ => exact absurd rfl hlanes
    | powerOnReset => exact .inl rfl

end Sys2Proof.Machine
end

section
/-! The values of STATUS, and the DIGEST port as a view of the lanes (R19, R20, R98). -/

namespace Sys2Proof.Machine

/-- A word made of two parts has the sum of their values, the upper one scaled. -/
theorem toNat_append_eq_add {m n : Nat} (x : BitVec m) (y : BitVec n) :
    (x ++ y).toNat = x.toNat * 2 ^ n + y.toNat := by
  rw [BitVec.toNat_append, ← Nat.shiftLeft_add_eq_or_of_lt y.isLt, Nat.shiftLeft_eq]

/-- The value of STATUS is the sum of those of its fields (R19). -/
theorem toNat_status (e : Engine) :
    e.status.toNat = e.cnt.val * 256 + e.errIllegal.toNat * 4 + e.errFinalized.toNat * 2 + e.phase.bit.toNat := by
  have hcnt : e.cnt.val % 256 = e.cnt.val := Nat.mod_eq_of_lt (by omega)
  simp only [Engine.status, toNat_append_eq_add, BitVec.toNat_ofNat, BitVec.toNat_ofBool, hcnt]
  omega

/-- Settles O30: by the phase, which leaves `ERR_FINALIZED` or `CNT` at 0. -/
theorem legalStatusValues : Obligations.LegalStatusValues := by
  intro e hlegal
  refine ⟨fun hphase => ?_, fun hphase => ?_⟩
  · have hbit : e.phase.bit.toNat = 0 := by rw [hphase]; rfl
    have hfin : e.errFinalized.toNat = 0 := by rw [hlegal.absorbingUnrefused hphase]; rfl
    exact ⟨e.cnt.val, by omega, e.errIllegal.toNat, Bool.toNat_le _, by rw [toNat_status]; omega⟩
  · have hbit : e.phase.bit.toNat = 1 := by rw [hphase]; rfl
    have hcnt : e.cnt.val = 0 := by rw [hlegal.finalizedDrained hphase]; rfl
    exact ⟨e.errFinalized.toNat, Bool.toNat_le _, e.errIllegal.toNat, Bool.toNat_le _, by rw [toNat_status]; omega⟩

theorem phase_bit_getLsbD (p : Phase) : p.bit.getLsbD 0 = true ↔ p = .finalized := by
  cases p <;> decide

/-- Settles O29: each field is read off the part of the word that holds it. -/
theorem statusLayout : Obligations.StatusLayout := by
  intro e
  have hcnt : e.cnt.val % 256 = e.cnt.val := Nat.mod_eq_of_lt (by omega)
  simp only [Engine.status, BitVec.getLsbD_append, BitVec.extractLsb'_append_eq_ite]
  refine ⟨phase_bit_getLsbD e.phase, ?_, ?_, ?_, ?_⟩
  · simp
  · simp
  · simp
  · simp [hcnt]

/-- A byte of a lane is the slice of its eight bits (R95). -/
theorem laneByte_eq_extractLsb' (v : Lane) (j : Fin 8) : laneByte v j = v.extractLsb' (8 * j.val) 8 :=
  BitVec.setWidth_ushiftRight_eq_extractLsb

/-- A slice that lies within a slice. -/
theorem extractLsb'_extractLsb'_of_add_le {w start len start' len' : Nat} (x : BitVec w)
    (h : start' + len' ≤ len) :
    (x.extractLsb' start len).extractLsb' start' len' = x.extractLsb' (start + start') len' := by
  apply BitVec.eq_of_getLsbD_eq
  intro i hi
  have hlen : start' + i < len := by omega
  simp [BitVec.getLsbD_extractLsb', hlen, Nat.add_assoc]

/-- The 64-bit parts of the port are lanes 0 to 3 (R20). -/
theorem extractLsb'_digestWord_lane (S : Lanes) {i : Nat} (h : i < 4) :
    (digestWord S).extractLsb' (64 * i) 64 = S[i] := by
  match i, h with
  | 0, _ => exact BitVec.extractLsb'_append_eq_right
  | 1, _ =>
    rw [digestWord, BitVec.extractLsb'_append_eq_of_le (by decide)]
    exact BitVec.extractLsb'_append_eq_right
  | 2, _ =>
    rw [digestWord, BitVec.extractLsb'_append_eq_of_le (by decide), BitVec.extractLsb'_append_eq_of_le (by decide)]
    exact BitVec.extractLsb'_append_eq_right
  | 3, _ =>
    rw [digestWord, BitVec.extractLsb'_append_eq_of_le (by decide), BitVec.extractLsb'_append_eq_of_le (by decide),
      BitVec.extractLsb'_append_eq_of_le (by decide)]
    exact BitVec.extractLsb'_eq_self

/-- The bytes of the port are those of the squeeze (R20, R98). -/
theorem extractLsb'_digestWord_byte (S : Lanes) {k : Nat} (h : k < 32) :
    (digestWord S).extractLsb' (8 * k) 8 = (squeeze S)[k] := by
  have hlane : k / 8 < 4 := by omega
  have hwithin : 8 * (k % 8) + 8 ≤ 64 := by omega
  have hstart : 64 * (k / 8) + 8 * (k % 8) = 8 * k := by omega
  rw [getElem_squeeze, laneByte_eq_extractLsb', ← extractLsb'_digestWord_lane S hlane,
    extractLsb'_extractLsb'_of_add_le _ hwithin, hstart]

/-- Settles O31: by the phase; the parts and the bytes are those of the valid port's word. -/
theorem digestPortView : Obligations.DigestPortView := by
  intro e
  refine ⟨e.digestPort_absorbing, fun hphase => ⟨_, e.digestPort_finalized hphase, ?_, ?_⟩⟩
  · exact fun i h => extractLsb'_digestWord_lane e.lanes h
  · exact fun k h => extractLsb'_digestWord_byte e.lanes h

/-- The error bits have no part in the port (R20). -/
@[simp] theorem setSticky_digestPort (e : Engine) (c : Cause) : (e.setSticky c).digestPort = e.digestPort := by
  cases c <;> rfl

/-- Settles O21: by the phase; the port shows the bytes of the squeeze of the lanes that `FINALIZE` leaves. -/
theorem digestResponseEqualsPort : Obligations.DigestResponseEqualsPort := by
  intro s
  constructor
  · intro hphase
    exact ⟨_, _, _, exec_finalize_absorbing s hphase, rfl, rfl, Engine.digestPort_finalized _ rfl,
      fun k h => extractLsb'_digestWord_byte _ h⟩
  · intro hphase
    exact ⟨_, exec_finalize_finalized s hphase, setSticky_digestPort _ _, rfl⟩

/-- A byte of the word for a lane is the buffer byte that it was packed from (R31, R95). -/
theorem laneByte_memRead8 (blk : Block) (i : Fin 17) (j : Fin 8) : laneByte (memRead8 blk i) j = blockByte blk i j := by
  apply BitVec.eq_of_getLsbD_eq
  intro k hk
  rw [laneByte_eq_extractLsb', BitVec.getLsbD_extractLsb', getLsbD_memRead8 blk i j hk]
  simp [hk]

/-- Settles O40: byte `k` is unpacked from lane `k / 8`, into which it was packed. -/
theorem squeezeInvertsPacking : Obligations.SqueezeInvertsPacking := by
  intro blk
  apply List.ext_getElem
  · simp
  · intro k hk _
    have hlen : k < 32 := by simpa using hk
    have hrate : k / 8 < 17 := by omega
    have hzero : zeroLanes[k / 8] ^^^ memRead8 blk ⟨k / 8, hrate⟩ = memRead8 blk ⟨k / 8, hrate⟩ := by simp
    rw [Vector.getElem_toList, getElem_squeeze, getElem_xorBlock, dif_pos hrate, hzero, laneByte_memRead8,
      List.getElem_take, Vector.getElem_toList]
    simp only [blockByte, Nat.div_add_mod]

end Sys2Proof.Machine
end

section
/-! Rho-pi by destination, the two tables and the two known digests (R115, R116, R119, R123, R124, R146). -/

namespace Sys2Proof.Machine

/-- The index of the lane that moves to index `dst`: with `u = dst % 5` and `v = dst / 5` it is the one in column
`u + 3*v` and row `u` (R114, R116). -/
def rhoPiSource (dst : Fin 25) : Fin 25 :=
  let u : Fin 5 := ⟨dst.val % 5, Nat.mod_lt _ (by decide)⟩
  let v : Fin 5 := ⟨dst.val / 5, by omega⟩
  ⟨(u + 3 * v).val + 5 * u.val, by omega⟩

theorem getElem_rhoPi (T : Lanes) (dst : Fin 25) :
    (rhoPi T)[dst.val] = rotl64 T[(rhoPiSource dst).val] rhoTable[(rhoPiSource dst).val] := by
  rw [rhoPi, getElem_lanesOf]
  rfl

/-- Settles O44: the list's sources and rotations are those of `rhoPi` at each of the 25 destinations. -/
theorem rhoPiByDestination : Obligations.RhoPiByDestination := by
  intro T pairs hpairs
  have hpair : ∀ d : Fin 25, pairs[d.val] = (rhoPiSource d, rhoTable[(rhoPiSource d).val]) := by
    subst hpairs
    decide
  intro dst h
  rw [getElem_rhoPi T ⟨dst, h⟩]
  simp only [hpair ⟨dst, h⟩]

/-- Settles O48: the walk is finite, and the table is looked up at each of its positions. -/
theorem rotationTableHasClosedForm : Obligations.RotationTableHasClosedForm := by
  unfold Obligations.RotationTableHasClosedForm
  decide

/-- Settles O49: the register is run through the 168 steps of the 24 rounds. -/
theorem roundConstantsHaveGenerator : Obligations.RoundConstantsHaveGenerator := by
  unfold Obligations.RoundConstantsHaveGenerator
  decide +kernel

/-- Settles O55: both messages are one padded block, so that each digest is one permutation. -/
theorem knownAnswerDigests : Obligations.KnownAnswerDigests := by
  unfold Obligations.KnownAnswerDigests
  decide +kernel

end Sys2Proof.Machine
end

section
/-! Whole messages: what the update, the one-shot hash and an interrupted message leave, and the digest as a fold
over blocks (R79, R94, R96, R140, R141, R155). -/

namespace Sys2Proof.Machine

@[simp] theorem foldl_acceptByte_errFinalized (data : List Byte) (e : Engine) :
    (data.foldl Engine.acceptByte e).errFinalized = e.errFinalized := by
  induction data generalizing e with
  | nil => rfl
  | cons b data ih => rw [List.foldl_cons, ih, acceptByte_errFinalized]

@[simp] theorem foldl_acceptByte_errIllegal (data : List Byte) (e : Engine) :
    (data.foldl Engine.acceptByte e).errIllegal = e.errIllegal := by
  induction data generalizing e with
  | nil => rfl
  | cons b data ih => rw [List.foldl_cons, ih, acceptByte_errIllegal]

/-- The bytes of `m`, accepted by the reset engine, are the message that it holds (R79). -/
theorem foldl_acceptByte_reset_holdsMessage (m : List Byte) :
    (m.foldl Engine.acceptByte .reset).HoldsMessage m :=
  foldl_acceptByte_holdsMessage (m := []) rfl reset_holdsMessage m

/-- Settles O50: the update accepts the bytes in order, which neither changes the phase nor an error bit. -/
theorem updateAbsorbsMessage : Obligations.UpdateAbsorbsMessage := by
  intro m s hengine
  have hreset : s.engine = .reset := hengine
  refine ⟨_, run_updateWords m s (congrArg Engine.phase hreset), ?_, ?_, ?_, ?_, rfl, rfl⟩
  · rw [hreset]
    exact foldl_acceptByte_reset_holdsMessage m
  · rw [foldl_acceptByte_phase, hreset, Engine.reset_phase]
  · rw [foldl_acceptByte_errFinalized, hreset, Engine.reset_errFinalized]
  · rw [foldl_acceptByte_errIllegal, hreset, Engine.reset_errIllegal]

/-- A finalized engine with no error bit set shows `STATUS` 0x0001 (R19, R141). -/
theorem status_finalize_of_clear {e : Engine} (hfin : e.errFinalized = false) (hill : e.errIllegal = false) :
    e.finalize.status = 0x0001 := by
  apply BitVec.eq_of_toNat_eq
  rw [toNat_status, Engine.finalize_cnt, Engine.finalize_phase, Engine.finalize_errFinalized,
    Engine.finalize_errIllegal, hfin, hill]
  rfl

/-- Settles O51: the run of the one-shot hash, and what its last engine holds. -/
theorem hashReturnsKeccak256 : Obligations.HashReturnsKeccak256 := by
  intro m s
  refine ⟨_, run_hashWords m s, rfl, ?_, rfl, ?_, ?_⟩
  · simp [List.replicate_succ]
  · exact status_finalize_of_clear (foldl_acceptByte_errFinalized m .reset) (foldl_acceptByte_errIllegal m .reset)
  · exact finalize_holdsMessage (foldl_acceptByte_phase m .reset) (foldl_acceptByte_reset_holdsMessage m)

/-- An action that keeps the message open has an effect in the ABSORBING phase, and keeps that phase. -/
theorem exists_actionEffect_of_keepsMessageOpen {e : Engine} {a : HostAction} (ha : keepsMessageOpen a = true)
    (hphase : e.phase = .absorbing) : ∃ e' shown, ActionEffect e a e' shown ∧ e'.phase = .absorbing := by
  cases a with
  | command w =>
    cases hw : decode w with
    | reset => simp [keepsMessageOpen, commandOf, hw] at ha
    | absorb b =>
      exact ⟨_, _, .of_decode hw (.accept hphase), (acceptByte_phase e b).trans hphase⟩
    | finalize => simp [keepsMessageOpen, commandOf, hw] at ha
    | reserved =>
      exact ⟨_, _, .of_decode hw (.refuse (c := .illegalCommand) rfl), (Engine.setSticky_phase e _).trans hphase⟩
  | readStatus => exact ⟨_, _, .readStatus, hphase⟩
  | readDigest => cases ha
  | powerOnReset => cases ha

/-- Such an action appends the byte that it carries, if it carries one (R71, R155, R36). -/
theorem messageAfter_of_keepsMessageOpen {a : HostAction} (ha : keepsMessageOpen a = true) (m : List Byte) :
    messageAfter a .absorbing m = m ++ (actionByte a).toList := by
  cases a with
  | command w =>
    cases hw : decode w with
    | reset => simp [keepsMessageOpen, commandOf, hw] at ha
    | absorb b => simp [messageAfter, actionByte, commandOf, hw]
    | finalize => simp [keepsMessageOpen, commandOf, hw] at ha
    | reserved => simp [messageAfter, actionByte, commandOf, hw]
  | readStatus => simp [messageAfter, actionByte]
  | readDigest => cases ha
  | powerOnReset => cases ha

/-- A run of such actions completes and appends their bytes, in order, to the message. -/
theorem run_keepsMessageOpen (acts rest : List HostAction) (s : State) {m : List Byte}
    (hopen : ∀ a ∈ acts, keepsMessageOpen a = true) (hpending : s.pending = acts ++ rest)
    (hphase : s.engine.phase = .absorbing) (hm : s.engine.HoldsMessage m) :
    ∃ t, run acts.length s = .next t ∧ t.pending = rest ∧ t.engine.phase = .absorbing ∧
      t.engine.HoldsMessage (m ++ acts.filterMap actionByte) := by
  induction acts generalizing s m with
  | nil => exact ⟨s, rfl, hpending, hphase, by simpa using hm⟩
  | cons a acts ih =>
    obtain ⟨ha, hacts⟩ := List.forall_mem_cons.mp hopen
    obtain ⟨e', shown, heffect, hphase'⟩ := exists_actionEffect_of_keepsMessageOpen ha hphase
    have hm' := heffect.holdsMessage hm
    rw [hphase, messageAfter_of_keepsMessageOpen ha] at hm'
    obtain ⟨t, hrun, ht⟩ := ih ⟨e', acts ++ rest, s.outputs ++ shown⟩ hacts rfl hphase' hm'
    refine ⟨t, (run_succ_of_step (heffect.step_eq hpending) acts.length).trans hrun, ?_⟩
    cases hbyte : actionByte a <;> simpa [hbyte] using ht

/-- Settles O53: the engine holds the bytes when `FINALIZE` comes, which then shows their `Keccak256`. -/
theorem messageSurvivesInterruptions : Obligations.MessageSurvivesInterruptions := by
  intro acts rest s hengine hopen hpending
  have hreset : s.engine = .reset := hengine
  obtain ⟨t, hrun, hlater, hphase, hm⟩ := run_keepsMessageOpen acts _ s hopen hpending
    (congrArg Engine.phase hreset) (hreset ▸ reset_holdsMessage)
  have hfinalize := ActionEffect.of_decode (decode_encode .finalize) (.finalize hphase)
  have hstep : advance (run acts.length s) = _ := (congrArg advance hrun).trans (hfinalize.step_eq hlater)
  refine ⟨_, (run_succ_eq_advance acts.length s).trans hstep, rfl, ?_⟩
  rw [List.getLast?_concat, finalize_lanes_of_holdsMessage hphase hm]
  rfl

/-- The full blocks of a message, absorbed one after the other, are a fold over the blocks (R79, R94). -/
theorem absorbBlocks_eq_foldl (q : Nat) (S : Lanes) (m : List Byte) :
    absorbBlocks q S m = ((List.range q).map fun j => firstBlock (m.drop (136 * j))).foldl absorbLanes S := by
  induction q with
  | zero => rfl
  | succ q ih => rw [absorbBlocks_succ, ih, List.range_succ, List.map_append, List.foldl_append]; rfl

/-- Settles O54: the full blocks are a fold, and the padded rest is one more block after them. -/
theorem digestIsFoldOverBlocks : Obligations.DigestIsFoldOverBlocks := by
  intro m
  refine ⟨_, rfl, by simp, ?_⟩
  rw [List.foldl_append, keccak256, finalLanes, messageLanes, absorbBlocks_eq_foldl]
  rfl

end Sys2Proof.Machine
end

section
/-! The commands by their words, and a step by what is presented (R50, R52, R60, R176). -/

namespace Sys2Proof.Machine

/-- Settles O3: the decoder run on each of the listed words. -/
theorem specWordsDecodeAsListed : Obligations.SpecWordsDecodeAsListed := by
  unfold Obligations.SpecWordsDecodeAsListed
  decide

/-- A table word that decodes is the word that the host presents for it (R51). -/
theorem decode_fetchWord {nbits w : Nat} {i : Instr} (h : decodeTableWord nbits w = some i) :
    decode (fetchWord nbits w) = i := by
  by_cases hfits : wordFits (w % 2 ^ nbits) = true
  · simpa [fetchWord, decodeTableWord, decodeRaw, hfits] using h
  · simp [decodeTableWord, decodeRaw, hfits] at h

/-- Settles O5: by what is presented first, a command word, nothing, or the word of a table. -/
theorem stepExecutesPresentedWord : Obligations.StepExecutesPresentedWord := by
  refine ⟨step_command, step_idle, fun s nbits w i h => ?_⟩
  rw [State.withFetchWord, step_command _ (fetchWord nbits w) s.pending rfl, decode_fetchWord h]
  rfl

/-- Settles O6: one rule for each port read. -/
theorem portReadsChangeNothing : Obligations.PortReadsChangeNothing := fun s rest =>
  ⟨step_readStatus s rest, step_readDigest_finalized s rest, step_readDigest_absorbing s rest⟩

/-- A step answers a next state, or it is the read of a DIGEST port that is not valid (R20, R176). -/
theorem step_completes_or_invalidRead (s : State) :
    (∃ t, step s = .next t) ∨ s.engine.phase = .absorbing ∧ ∃ rest, s.pending = .readDigest :: rest := by
  cases hpending : s.pending with
  | nil => exact .inl ⟨s, step_idle s hpending⟩
  | cons a rest =>
    obtain ⟨e', shown, heffect⟩ | ⟨hphase, rfl⟩ := exists_actionEffect_or_invalidRead s.engine a
    · exact .inl ⟨_, heffect.step_eq hpending⟩
    · exact .inr ⟨hphase, rest, rfl⟩

/-- Settles O7: the two outcomes of a step exclude each other, since the invalid read is refused by name. -/
theorem stepStopsOnlyOnInvalidDigestRead : Obligations.StepStopsOnlyOnInvalidDigestRead := by
  intro s
  obtain ⟨t, hnext⟩ | ⟨hphase, rest, hpending⟩ := step_completes_or_invalidRead s
  · refine ⟨⟨fun _ => ?_, fun _ => ⟨t, hnext⟩⟩, fun r hr => ?_⟩
    · rintro ⟨hphase, rest, hpending⟩
      cases hnext.symm.trans (step_readDigest_absorbing s rest hpending hphase)
    · cases hnext.symm.trans hr
  · have hrefused := step_readDigest_absorbing s rest hpending hphase
    refine ⟨⟨fun ⟨t, hnext⟩ => ?_, fun hvalid => absurd ⟨hphase, rest, hpending⟩ hvalid⟩, fun r hr => ?_⟩
    · cases hnext.symm.trans hrefused
    · cases hrefused.symm.trans hr
      rfl

/-- The words of an update decode to one `ABSORB` per byte (R60). -/
theorem map_decode_updateWords (m : List Byte) : (updateWords m).map decode = m.map .absorb := by
  simp [updateWords]

/-- Settles O57: the canonical words of the commands read back. -/
theorem pseudoInstructionsExpand : Obligations.PseudoInstructionsExpand := by
  intro m
  refine ⟨map_decode_updateWords m, ?_, rfl⟩
  simp [AsmLine.words, hashWords, map_decode_updateWords]

end Sys2Proof.Machine
end

section
/-! The lifecycle of the commands, the values of reset and of the responses, and what each command leaves
unchanged (R17, R24, R57, R152, R170, R174). -/

namespace Sys2Proof.Machine

/-- Settles O9: one row of the table for each command and phase. -/
theorem lifecycleTable : Obligations.LifecycleTable := by
  intro i s
  cases hphase : s.engine.phase with
  | absorbing =>
    cases i with
    | reset => exact ⟨_, _, exec_reset s, rfl, rfl, rfl, rfl⟩
    | absorb b => exact ⟨_, _, exec_absorb_absorbing b s hphase, rfl, rfl, (acceptByte_phase _ b).trans hphase, rfl⟩
    | finalize => exact ⟨_, _, exec_finalize_absorbing s hphase, rfl, rfl, rfl, rfl⟩
    | reserved => exact ⟨_, _, exec_reserved s, rfl, rfl, hphase, rfl⟩
  | finalized =>
    cases i with
    | reset => exact ⟨_, _, exec_reset s, rfl, rfl, rfl, rfl⟩
    | absorb b => exact ⟨_, _, exec_absorb_finalized b s hphase, rfl, rfl, hphase, rfl⟩
    | finalize => exact ⟨_, _, exec_finalize_finalized s hphase, rfl, rfl, hphase, rfl⟩
    | reserved => exact ⟨_, _, exec_reserved s, rfl, rfl, hphase, rfl⟩

/-- Settles O10: the word of each response, of which there are four kinds. -/
theorem responseWordValues : Obligations.ResponseWordValues := by
  refine ⟨rfl, fun _ => rfl, rfl, rfl, fun r => ?_⟩
  cases r with
  | ok => exact .inl rfl
  | digest d => exact .inr (.inl rfl)
  | error c =>
    cases c with
    | alreadyFinalized => exact .inr (.inr (.inl rfl))
    | illegalCommand => exact .inr (.inr (.inr rfl))

/-- Settles O11: the reset engine's lanes and buffer are the zero vectors, and every other value is written out. -/
theorem resetStateValues : Obligations.ResetStateValues :=
  ⟨getElem_zeroLanes, getElem_zeroBlock, rfl, rfl, rfl, rfl, rfl, rfl, rfl, rfl⟩

/-- Settles O13: power-on reset and `RESET` both leave the reset engine. -/
theorem powerOnResetActsAsReset : Obligations.PowerOnResetActsAsReset := fun s rest hpending =>
  ⟨_, _, step_powerOnReset s rest hpending, exec_reset _, rfl, rfl, rfl, rfl⟩

/-- Settles O16: by the phase; an accepted byte is stored at the count, and a refusal sets one bit. -/
theorem absorbFrame : Obligations.AbsorbFrame := by
  intro b s t h
  cases hphase : s.engine.phase with
  | absorbing =>
    cases (exec_absorb_absorbing b s hphase).symm.trans h
    refine ⟨rfl, (acceptByte_phase _ b).trans hphase, acceptByte_errIllegal _ b,
      fun _ => acceptByte_errFinalized _ b, fun k hk hne => ?_, fun hroom => ?_, fun hfin => nomatch hfin⟩
    · have hother : k ≠ s.engine.cnt.val := fun heq => hne ⟨rfl, heq⟩
      simp only [acceptByte_buf, getElem_memWrite1, if_neg hother]
    · have hnotFull : s.engine.cnt.val ≠ 135 := fun hfull => hroom ⟨rfl, hfull⟩
      obtain ⟨-, hlanes⟩ := acceptByte_counts_of_room s.engine b (by omega)
      exact hlanes
  | finalized =>
    cases (exec_absorb_finalized b s hphase).symm.trans h
    exact ⟨rfl, hphase, rfl, fun habs => (nomatch habs), fun _ _ _ => rfl, fun _ => rfl, fun _ => rfl⟩

/-- The padding in place keeps the pending bytes (R90). -/
theorem getElem_padInPlace_of_lt (blk : Block) (n : Fin 136) {k : Nat} (hk : k < 136) (hlt : k < n.val) :
    (padInPlace blk n)[k] = blk[k] := by
  have hlast : k ≠ 135 := by omega
  rw [getElem_padInPlace, if_pos hlt, if_neg hlast]
  exact BitVec.or_zero

/-- Settles O20: by the phase; the padding keeps the pending bytes, and a refusal sets one bit. -/
theorem finalizeFrame : Obligations.FinalizeFrame := by
  intro s t h
  cases hphase : s.engine.phase with
  | absorbing =>
    cases (exec_finalize_absorbing s hphase).symm.trans h
    refine ⟨rfl, rfl, fun k hk hkept => ?_, fun _ => rfl, fun hfin => nomatch hfin⟩
    obtain hfin | hlt := hkept
    · cases hfin
    · exact getElem_padInPlace_of_lt _ _ hk hlt
  | finalized =>
    cases (exec_finalize_finalized s hphase).symm.trans h
    exact ⟨rfl, rfl, fun _ _ _ => rfl, fun habs => (nomatch habs), fun _ => ⟨rfl, rfl, hphase⟩⟩

/-- The engine with these values of the two error bits. -/
def Engine.withErrorBits (e : Engine) (f g : Bool) : Engine := { e with errFinalized := f, errIllegal := g }

theorem acceptByte_withErrorBits (e : Engine) (b : Byte) (f g : Bool) :
    (e.withErrorBits f g).acceptByte b = (e.acceptByte b).withErrorBits f g := by
  obtain ⟨hroom, heq⟩ | ⟨hfull, heq⟩ := acceptByte_cases e b
  · rw [heq]
    exact acceptByte_of_lt (e.withErrorBits f g) b hroom
  · rw [heq]
    exact acceptByte_of_full (e.withErrorBits f g) b hfull

theorem setSticky_withErrorBits (e : Engine) (c : Cause) (f g : Bool) :
    ∃ f' g', (e.withErrorBits f g).setSticky c = (e.setSticky c).withErrorBits f' g' := by
  cases c with
  | alreadyFinalized => exact ⟨true, g, rfl⟩
  | illegalCommand => exact ⟨f, true, rfl⟩

/-- Other values of the error bits change the effect of a command in these bits only (R17). -/
theorem CommandEffect.withErrorBits {e e' : Engine} {i : Instr} {r : Response} (h : CommandEffect e i e' r)
    (f g : Bool) : ∃ f' g', CommandEffect (e.withErrorBits f g) i (e'.withErrorBits f' g') r := by
  cases h with
  | reset => exact ⟨false, false, .reset⟩
  | accept hphase => exact ⟨f, g, acceptByte_withErrorBits e _ f g ▸ .accept hphase⟩
  | finalize hphase => exact ⟨f, g, .finalize (e := e.withErrorBits f g) hphase⟩
  | @refuse _ c hcause =>
    obtain ⟨f', g', heq⟩ := setSticky_withErrorBits e c f g
    exact ⟨f', g', heq ▸ .refuse hcause⟩

/-- Settles O27: the effects from the two states differ in the error bits only. -/
theorem datapathIgnoresErrorBits : Obligations.DatapathIgnoresErrorBits := by
  intro i s f g
  obtain ⟨e', r, heffect⟩ := exists_commandEffect s.engine i
  obtain ⟨f', g', heffect'⟩ := heffect.withErrorBits f g
  exact ⟨_, _, heffect.exec_eq, heffect'.exec_eq (s := { s with engine := s.engine.withErrorBits f g }),
    rfl, rfl, rfl, rfl, rfl, rfl⟩

end Sys2Proof.Machine
end
